-- ==== Sys2Proof/Word.lean ====
section
/-! DEFINITION. The widths of the machine: bytes, words and register indices (spec/00_scope.md R7, R9). -/

namespace Sys2Proof

/-- One byte of memory (R50). -/
abbrev Byte := BitVec 8

/-- A word: a general register, the pc, an instruction word, an effective address (R7 `XLEN`, `ILEN`; R9). -/
abbrev Word := BitVec 32

/-- A register index: the 5-bit field of an instruction, the 5-bit index port of the register file
(R24, R81, R132). Every value names an existing register. -/
abbrev Reg := BitVec 5

end Sys2Proof
end

