-- ==== Sys2Proof/Decode.lean ====
section
/-! DEFINITION. The bit-field extractor (spec/30_encoding.md R110 to R117), the decoder (R80 to R100), the opcode map
(R95) and the encoder written from the same formats. -/

namespace Sys2Proof

/-! ### The bit-field extractor -/

/-- An index as a caller of the extractor may pass it (R113: the first check is that it is an integer). -/
inductive BitIndex where
  | int (i : Int)
  /-- Anything that is not an integer, such as 1.5. -/
  | nonInteger
  deriving DecidableEq, Repr

/-- The three distinct InvalidArgument conditions (R113). They fail a CALL of the extractor, never a step (R116, R241). -/
inductive InvalidArgument where
  | notInteger
  | outOfRange
  | lowGtHigh
  deriving DecidableEq, Repr

/-- Bits low..high of a value, inclusive, right-aligned, as an unsigned integer (R110 to R112), after the checks of R113
in the order of R114. -/
def extractBits (value : Word) (low high : BitIndex) : Except InvalidArgument Nat :=
  match low, high with
  | .int l, .int h =>
    if l < 0 ∨ 31 < l ∨ h < 0 ∨ 31 < h then .error .outOfRange
    else if h < l then .error .lowGtHigh
    else .ok ((value.toNat >>> l.toNat) % 2 ^ (h - l + 1).toNat)
  | .nonInteger, _ => .error .notInteger
  | .int _, .nonInteger => .error .notInteger

/-- The extractor as a hardware block with 5-bit index ports (R115). -/
def extractBitsPorts (value : Word) (low high : BitVec 5) : Except InvalidArgument Nat :=
  extractBits value (.int low.toNat) (.int high.toNat)

/-! ### The fields of an instruction word (R81) -/

/-- insn[low+len-1 : low]. Law `extractBits_eq_slice` says that the extractor answers the same (R116). -/
def slice (insn : Word) (low len : Nat) : BitVec len := insn.extractLsb' low len

def insnOpcode (insn : Word) : BitVec 7 := slice insn 0 7
def insnRd (insn : Word) : Reg := slice insn 7 5
def insnFunct3 (insn : Word) : BitVec 3 := slice insn 12 3
def insnRs1 (insn : Word) : Reg := slice insn 15 5
def insnRs2 (insn : Word) : Reg := slice insn 20 5
def insnFunct7 (insn : Word) : BitVec 7 := slice insn 25 7

/-- R88: insn[31:12]. -/
def insnImm20 (insn : Word) : BitVec 20 := slice insn 12 20

/-- R89: insn[31], insn[19:12], insn[20], insn[30:21], 0. -/
def insnOffsetJ (insn : Word) : BitVec 21 :=
  (slice insn 31 1 ++ slice insn 12 8 ++ slice insn 20 1 ++ slice insn 21 10 ++ 0#1 : BitVec (1 + 8 + 1 + 10 + 1))

/-- R90: insn[31], insn[7], insn[30:25], insn[11:8], 0. -/
def insnOffsetB (insn : Word) : BitVec 13 :=
  (slice insn 31 1 ++ slice insn 7 1 ++ slice insn 25 6 ++ slice insn 8 4 ++ 0#1 : BitVec (1 + 1 + 6 + 4 + 1))

/-- R91: insn[31:20]. -/
def insnImmI (insn : Word) : BitVec 12 := slice insn 20 12

/-- R92: insn[31:25], insn[11:7]. -/
def insnImmS (insn : Word) : BitVec 12 := (slice insn 25 7 ++ slice insn 7 5 : BitVec (7 + 5))

/-- R93: insn[24:20]. -/
def insnShamt (insn : Word) : BitVec 5 := slice insn 20 5

/-- R93: insn[30], the shift kind. -/
def insnArith (insn : Word) : BitVec 1 := slice insn 30 1

/-! ### Handlers (R94)

One for each row of the document's table. A handler answers the instruction it matches, or `none`: it declines. -/

/-- U format: selected by the opcode alone (R140). -/
def handleUpper (insn : Word) : Option Instr :=
  if insnOpcode insn = 0x37 then some (.lui (insnRd insn) (insnImm20 insn))
  else if insnOpcode insn = 0x17 then some (.auipc (insnRd insn) (insnImm20 insn))
  else none

/-- J format: selected by the opcode alone (R150). -/
def handleJal (insn : Word) : Option Instr :=
  if insnOpcode insn = 0x6F then some (.jal (insnRd insn) (insnOffsetJ insn)) else none

/-- B format: opcode 0x63 and funct3; 2 and 3 are declined (R160, R167). -/
def handleBranch (insn : Word) : Option Instr :=
  if insnOpcode insn = 0x63 then
    if insnFunct3 insn = 0 then some (.beq (insnRs1 insn) (insnRs2 insn) (insnOffsetB insn))
    else if insnFunct3 insn = 1 then some (.bne (insnRs1 insn) (insnRs2 insn) (insnOffsetB insn))
    else if insnFunct3 insn = 4 then some (.blt (insnRs1 insn) (insnRs2 insn) (insnOffsetB insn))
    else if insnFunct3 insn = 5 then some (.bge (insnRs1 insn) (insnRs2 insn) (insnOffsetB insn))
    else if insnFunct3 insn = 6 then some (.bltu (insnRs1 insn) (insnRs2 insn) (insnOffsetB insn))
    else if insnFunct3 insn = 7 then some (.bgeu (insnRs1 insn) (insnRs2 insn) (insnOffsetB insn))
    else none
  else none

/-- I format, loads: opcode 0x03 and funct3; 3, 6 and 7 are declined (R170, R176). -/
def handleLoad (insn : Word) : Option Instr :=
  if insnOpcode insn = 0x03 then
    if insnFunct3 insn = 0 then some (.lb (insnRd insn) (insnRs1 insn) (insnImmI insn))
    else if insnFunct3 insn = 1 then some (.lh (insnRd insn) (insnRs1 insn) (insnImmI insn))
    else if insnFunct3 insn = 2 then some (.lw (insnRd insn) (insnRs1 insn) (insnImmI insn))
    else if insnFunct3 insn = 4 then some (.lbu (insnRd insn) (insnRs1 insn) (insnImmI insn))
    else if insnFunct3 insn = 5 then some (.lhu (insnRd insn) (insnRs1 insn) (insnImmI insn))
    else none
  else none

/-- I format, ALU with immediate: opcode 0x13, every funct3 taken (R180); of the shifts' insn[31:25] only insn[30] is
looked at, and only for funct3 5 (R96 (b), (c); log 10). -/
def handleAluImmediate (insn : Word) : Option Instr :=
  if insnOpcode insn = 0x13 then
    if insnFunct3 insn = 0 then some (.addi (insnRd insn) (insnRs1 insn) (insnImmI insn))
    else if insnFunct3 insn = 1 then some (.slli (insnRd insn) (insnRs1 insn) (insnShamt insn))
    else if insnFunct3 insn = 2 then some (.slti (insnRd insn) (insnRs1 insn) (insnImmI insn))
    else if insnFunct3 insn = 3 then some (.sltiu (insnRd insn) (insnRs1 insn) (insnImmI insn))
    else if insnFunct3 insn = 4 then some (.xori (insnRd insn) (insnRs1 insn) (insnImmI insn))
    else if insnFunct3 insn = 5 then
      if insnArith insn = 0 then some (.srli (insnRd insn) (insnRs1 insn) (insnShamt insn))
      else some (.srai (insnRd insn) (insnRs1 insn) (insnShamt insn))
    else if insnFunct3 insn = 6 then some (.ori (insnRd insn) (insnRs1 insn) (insnImmI insn))
    else some (.andi (insnRd insn) (insnRs1 insn) (insnImmI insn))
  else none

/-- I format, JALR: selected by the opcode alone; funct3 is not inspected (R96 (a), R195; log 9). -/
def handleJalr (insn : Word) : Option Instr :=
  if insnOpcode insn = 0x67 then some (.jalr (insnRd insn) (insnRs1 insn) (insnImmI insn)) else none

/-- S format: opcode 0x23 and funct3; 3 to 7 are declined (R200, R204). -/
def handleStore (insn : Word) : Option Instr :=
  if insnOpcode insn = 0x23 then
    if insnFunct3 insn = 0 then some (.sb (insnRs1 insn) (insnRs2 insn) (insnImmS insn))
    else if insnFunct3 insn = 1 then some (.sh (insnRs1 insn) (insnRs2 insn) (insnImmS insn))
    else if insnFunct3 insn = 2 then some (.sw (insnRs1 insn) (insnRs2 insn) (insnImmS insn))
    else none
  else none

/-- R format: opcode 0x33, funct3 and all seven bits of funct7; ten pairs, every other pair is declined (R95, R210,
R221; log 11, 12). -/
def handleAluRegister (insn : Word) : Option Instr :=
  if insnOpcode insn = 0x33 then
    if insnFunct7 insn = 0x00 then
      if insnFunct3 insn = 0 then some (.add (insnRd insn) (insnRs1 insn) (insnRs2 insn))
      else if insnFunct3 insn = 1 then some (.sll (insnRd insn) (insnRs1 insn) (insnRs2 insn))
      else if insnFunct3 insn = 2 then some (.slt (insnRd insn) (insnRs1 insn) (insnRs2 insn))
      else if insnFunct3 insn = 3 then some (.sltu (insnRd insn) (insnRs1 insn) (insnRs2 insn))
      else if insnFunct3 insn = 4 then some (.xor (insnRd insn) (insnRs1 insn) (insnRs2 insn))
      else if insnFunct3 insn = 5 then some (.srl (insnRd insn) (insnRs1 insn) (insnRs2 insn))
      else if insnFunct3 insn = 6 then some (.or (insnRd insn) (insnRs1 insn) (insnRs2 insn))
      else some (.and (insnRd insn) (insnRs1 insn) (insnRs2 insn))
    else if insnFunct7 insn = 0x20 then
      if insnFunct3 insn = 0 then some (.sub (insnRd insn) (insnRs1 insn) (insnRs2 insn))
      else if insnFunct3 insn = 5 then some (.sra (insnRd insn) (insnRs1 insn) (insnRs2 insn))
      else none
    else none
  else none

/-- The extension slot: it declines every word (R227). -/
def handleExtension (_insn : Word) : Option Instr := none

/-! ### Decode (R94, R95, R97) -/

/-- Why no handler matched a word, or why bytes are no word. The machine treats all unmatched words alike (R99); the
names are the model's own (log 19). -/
inductive Reject where
  /-- The opcode is none of the nine (R97). -/
  | opcode
  /-- Opcode 0x63, funct3 2 or 3 (R167). -/
  | branchFunct3
  /-- Opcode 0x03, funct3 3, 6 or 7 (R176). -/
  | loadFunct3
  /-- Opcode 0x23, funct3 3 to 7 (R204). -/
  | storeFunct3
  /-- Opcode 0x33, a pair (funct7, funct3) that is not one of the ten (R221). -/
  | registerFunct
  /-- Fewer than four bytes; a fetch never gives fewer (R122). -/
  | tooShort
  deriving DecidableEq, Repr

/-- The name of the case of R97 an unmatched word falls under. -/
def rejectReason (insn : Word) : Reject :=
  if insnOpcode insn = 0x63 then .branchFunct3
  else if insnOpcode insn = 0x03 then .loadFunct3
  else if insnOpcode insn = 0x23 then .storeFunct3
  else if insnOpcode insn = 0x33 then .registerFunct
  else .opcode

/-- The chain of handlers: the first that matches answers (R94). -/
def matchWord (insn : Word) : Option Instr :=
  (handleUpper insn).or <| (handleJal insn).or <| (handleBranch insn).or <| (handleLoad insn).or <|
    (handleAluImmediate insn).or <| (handleJalr insn).or <| (handleStore insn).or <|
      (handleAluRegister insn).or <| handleExtension insn

/-- Decode one instruction word: a function of `insn` alone (R94, R124). -/
def decode (insn : Word) : Except Reject Instr :=
  match matchWord insn with
  | some i => .ok i
  | none => .error (rejectReason insn)

/-- The word four bytes make, the first at the lowest address and least significant (R58, R80). -/
def wordOfBytes (b0 b1 b2 b3 : Byte) : Word :=
  (b3 ++ b2 ++ b1 ++ b0 : BitVec (8 + 8 + 8 + 8))

/-- Decode the instruction at the head of any bytes, with the bytes after it. Every instruction is four bytes (R80,
R100). -/
def decodeBytes : List Byte → Except Reject (Instr × List Byte)
  | b0 :: b1 :: b2 :: b3 :: rest =>
    match decode (wordOfBytes b0 b1 b2 b3) with
    | .ok i => .ok (i, rest)
    | .error r => .error r
  | _ => .error .tooShort

/-- The bytes of a word as memory holds them, least significant first (R58, R262). -/
def bytesOfWord (w : Word) : List Byte :=
  [w.extractLsb' 0 8, w.extractLsb' 8 8, w.extractLsb' 16 8, w.extractLsb' 24 8]

/-- The instruction the decoder reads from an instruction whose bits are `w`, `nbits` of them given and the rest 0. -/
def decodeTableWord (nbits w : Nat) : Option Instr :=
  match decodeBytes (bytesOfWord (BitVec.ofNat 32 (w % 2 ^ nbits))) with
  | .ok (i, _) => some i
  | .error _ => none

/-! ### Encode (R82 to R87)

The word of a well-formed instruction. Bits the decoder does not inspect are written 0 (log 13). -/

def encodeU (imm20 : BitVec 20) (rd : Reg) (op : BitVec 7) : Word :=
  (imm20 ++ rd ++ op : BitVec (20 + 5 + 7))

def encodeJ (offset : BitVec 21) (rd : Reg) (op : BitVec 7) : Word :=
  (offset.extractLsb' 20 1 ++ offset.extractLsb' 1 10 ++ offset.extractLsb' 11 1 ++ offset.extractLsb' 12 8 ++ rd ++
    op : BitVec (1 + 10 + 1 + 8 + 5 + 7))

def encodeB (offset : BitVec 13) (rs2 rs1 : Reg) (f3 : BitVec 3) (op : BitVec 7) : Word :=
  (offset.extractLsb' 12 1 ++ offset.extractLsb' 5 6 ++ rs2 ++ rs1 ++ f3 ++ offset.extractLsb' 1 4 ++
    offset.extractLsb' 11 1 ++ op : BitVec (1 + 6 + 5 + 5 + 3 + 4 + 1 + 7))

def encodeI (imm : BitVec 12) (rs1 : Reg) (f3 : BitVec 3) (rd : Reg) (op : BitVec 7) : Word :=
  (imm ++ rs1 ++ f3 ++ rd ++ op : BitVec (12 + 5 + 3 + 5 + 7))

def encodeS (imm : BitVec 12) (rs2 rs1 : Reg) (f3 : BitVec 3) (op : BitVec 7) : Word :=
  (imm.extractLsb' 5 7 ++ rs2 ++ rs1 ++ f3 ++ imm.extractLsb' 0 5 ++ op : BitVec (7 + 5 + 5 + 3 + 5 + 7))

def encodeR (f7 : BitVec 7) (rs2 rs1 : Reg) (f3 : BitVec 3) (rd : Reg) (op : BitVec 7) : Word :=
  (f7 ++ rs2 ++ rs1 ++ f3 ++ rd ++ op : BitVec (7 + 5 + 5 + 3 + 5 + 7))

def encode : Instr → Word
  | .lui rd imm20 => encodeU imm20 rd 0x37
  | .auipc rd imm20 => encodeU imm20 rd 0x17
  | .jal rd offset => encodeJ offset rd 0x6F
  | .beq rs1 rs2 offset => encodeB offset rs2 rs1 0 0x63
  | .bne rs1 rs2 offset => encodeB offset rs2 rs1 1 0x63
  | .blt rs1 rs2 offset => encodeB offset rs2 rs1 4 0x63
  | .bge rs1 rs2 offset => encodeB offset rs2 rs1 5 0x63
  | .bltu rs1 rs2 offset => encodeB offset rs2 rs1 6 0x63
  | .bgeu rs1 rs2 offset => encodeB offset rs2 rs1 7 0x63
  | .lb rd rs1 imm => encodeI imm rs1 0 rd 0x03
  | .lh rd rs1 imm => encodeI imm rs1 1 rd 0x03
  | .lw rd rs1 imm => encodeI imm rs1 2 rd 0x03
  | .lbu rd rs1 imm => encodeI imm rs1 4 rd 0x03
  | .lhu rd rs1 imm => encodeI imm rs1 5 rd 0x03
  | .addi rd rs1 imm => encodeI imm rs1 0 rd 0x13
  | .slti rd rs1 imm => encodeI imm rs1 2 rd 0x13
  | .sltiu rd rs1 imm => encodeI imm rs1 3 rd 0x13
  | .xori rd rs1 imm => encodeI imm rs1 4 rd 0x13
  | .ori rd rs1 imm => encodeI imm rs1 6 rd 0x13
  | .andi rd rs1 imm => encodeI imm rs1 7 rd 0x13
  | .slli rd rs1 shamt => encodeR 0x00 shamt rs1 1 rd 0x13
  | .srli rd rs1 shamt => encodeR 0x00 shamt rs1 5 rd 0x13
  | .srai rd rs1 shamt => encodeR 0x20 shamt rs1 5 rd 0x13
  | .jalr rd rs1 imm => encodeI imm rs1 0 rd 0x67
  | .sb rs1 rs2 imm => encodeS imm rs2 rs1 0 0x23
  | .sh rs1 rs2 imm => encodeS imm rs2 rs1 1 0x23
  | .sw rs1 rs2 imm => encodeS imm rs2 rs1 2 0x23
  | .add rd rs1 rs2 => encodeR 0x00 rs2 rs1 0 rd 0x33
  | .sub rd rs1 rs2 => encodeR 0x20 rs2 rs1 0 rd 0x33
  | .sll rd rs1 rs2 => encodeR 0x00 rs2 rs1 1 rd 0x33
  | .slt rd rs1 rs2 => encodeR 0x00 rs2 rs1 2 rd 0x33
  | .sltu rd rs1 rs2 => encodeR 0x00 rs2 rs1 3 rd 0x33
  | .xor rd rs1 rs2 => encodeR 0x00 rs2 rs1 4 rd 0x33
  | .srl rd rs1 rs2 => encodeR 0x00 rs2 rs1 5 rd 0x33
  | .sra rd rs1 rs2 => encodeR 0x20 rs2 rs1 5 rd 0x33
  | .or rd rs1 rs2 => encodeR 0x00 rs2 rs1 6 rd 0x33
  | .and rd rs1 rs2 => encodeR 0x00 rs2 rs1 7 rd 0x33

/-! ### The opcode map (R95) -/

/-- One row of the table of R95: a word selects the instruction when `insn &&& mask = pattern`. -/
structure Row where
  mnemonic : String
  mask : Word
  pattern : Word
  deriving DecidableEq, Repr

def rowsUpperJalBranch : List Row :=
  [⟨"LUI", 0x0000007F, 0x00000037⟩,
   ⟨"AUIPC", 0x0000007F, 0x00000017⟩,
   ⟨"JAL", 0x0000007F, 0x0000006F⟩,
   ⟨"BEQ", 0x0000707F, 0x00000063⟩,
   ⟨"BNE", 0x0000707F, 0x00001063⟩,
   ⟨"BLT", 0x0000707F, 0x00004063⟩,
   ⟨"BGE", 0x0000707F, 0x00005063⟩,
   ⟨"BLTU", 0x0000707F, 0x00006063⟩,
   ⟨"BGEU", 0x0000707F, 0x00007063⟩]

def rowsLoad : List Row :=
  [⟨"LB", 0x0000707F, 0x00000003⟩,
   ⟨"LH", 0x0000707F, 0x00001003⟩,
   ⟨"LW", 0x0000707F, 0x00002003⟩,
   ⟨"LBU", 0x0000707F, 0x00004003⟩,
   ⟨"LHU", 0x0000707F, 0x00005003⟩]

def rowsAluImmediate : List Row :=
  [⟨"ADDI", 0x0000707F, 0x00000013⟩,
   ⟨"SLTI", 0x0000707F, 0x00002013⟩,
   ⟨"SLTIU", 0x0000707F, 0x00003013⟩,
   ⟨"XORI", 0x0000707F, 0x00004013⟩,
   ⟨"ORI", 0x0000707F, 0x00006013⟩,
   ⟨"ANDI", 0x0000707F, 0x00007013⟩,
   ⟨"SLLI", 0x0000707F, 0x00001013⟩,
   ⟨"SRLI", 0x4000707F, 0x00005013⟩,
   ⟨"SRAI", 0x4000707F, 0x40005013⟩]

def rowsJalrStore : List Row :=
  [⟨"JALR", 0x0000007F, 0x00000067⟩,
   ⟨"SB", 0x0000707F, 0x00000023⟩,
   ⟨"SH", 0x0000707F, 0x00001023⟩,
   ⟨"SW", 0x0000707F, 0x00002023⟩]

def rowsAluRegister : List Row :=
  [⟨"ADD", 0xFE00707F, 0x00000033⟩,
   ⟨"SUB", 0xFE00707F, 0x40000033⟩,
   ⟨"SLL", 0xFE00707F, 0x00001033⟩,
   ⟨"SLT", 0xFE00707F, 0x00002033⟩,
   ⟨"SLTU", 0xFE00707F, 0x00003033⟩,
   ⟨"XOR", 0xFE00707F, 0x00004033⟩,
   ⟨"SRL", 0xFE00707F, 0x00005033⟩,
   ⟨"SRA", 0xFE00707F, 0x40005033⟩,
   ⟨"OR", 0xFE00707F, 0x00006033⟩,
   ⟨"AND", 0xFE00707F, 0x00007033⟩]

/-- The 37 rows of R95, in the order of spec/opcode_table.json. -/
def opcodeTable : List Row :=
  rowsUpperJalBranch ++ rowsLoad ++ rowsAluImmediate ++ rowsJalrStore ++ rowsAluRegister

/-- The row of the table an instruction belongs to. -/
def Instr.row : Instr → Row
  | .lui _ _ => ⟨"LUI", 0x0000007F, 0x00000037⟩
  | .auipc _ _ => ⟨"AUIPC", 0x0000007F, 0x00000017⟩
  | .jal _ _ => ⟨"JAL", 0x0000007F, 0x0000006F⟩
  | .beq _ _ _ => ⟨"BEQ", 0x0000707F, 0x00000063⟩
  | .bne _ _ _ => ⟨"BNE", 0x0000707F, 0x00001063⟩
  | .blt _ _ _ => ⟨"BLT", 0x0000707F, 0x00004063⟩
  | .bge _ _ _ => ⟨"BGE", 0x0000707F, 0x00005063⟩
  | .bltu _ _ _ => ⟨"BLTU", 0x0000707F, 0x00006063⟩
  | .bgeu _ _ _ => ⟨"BGEU", 0x0000707F, 0x00007063⟩
  | .lb _ _ _ => ⟨"LB", 0x0000707F, 0x00000003⟩
  | .lh _ _ _ => ⟨"LH", 0x0000707F, 0x00001003⟩
  | .lw _ _ _ => ⟨"LW", 0x0000707F, 0x00002003⟩
  | .lbu _ _ _ => ⟨"LBU", 0x0000707F, 0x00004003⟩
  | .lhu _ _ _ => ⟨"LHU", 0x0000707F, 0x00005003⟩
  | .addi _ _ _ => ⟨"ADDI", 0x0000707F, 0x00000013⟩
  | .slti _ _ _ => ⟨"SLTI", 0x0000707F, 0x00002013⟩
  | .sltiu _ _ _ => ⟨"SLTIU", 0x0000707F, 0x00003013⟩
  | .xori _ _ _ => ⟨"XORI", 0x0000707F, 0x00004013⟩
  | .ori _ _ _ => ⟨"ORI", 0x0000707F, 0x00006013⟩
  | .andi _ _ _ => ⟨"ANDI", 0x0000707F, 0x00007013⟩
  | .slli _ _ _ => ⟨"SLLI", 0x0000707F, 0x00001013⟩
  | .srli _ _ _ => ⟨"SRLI", 0x4000707F, 0x00005013⟩
  | .srai _ _ _ => ⟨"SRAI", 0x4000707F, 0x40005013⟩
  | .jalr _ _ _ => ⟨"JALR", 0x0000007F, 0x00000067⟩
  | .sb _ _ _ => ⟨"SB", 0x0000707F, 0x00000023⟩
  | .sh _ _ _ => ⟨"SH", 0x0000707F, 0x00001023⟩
  | .sw _ _ _ => ⟨"SW", 0x0000707F, 0x00002023⟩
  | .add _ _ _ => ⟨"ADD", 0xFE00707F, 0x00000033⟩
  | .sub _ _ _ => ⟨"SUB", 0xFE00707F, 0x40000033⟩
  | .sll _ _ _ => ⟨"SLL", 0xFE00707F, 0x00001033⟩
  | .slt _ _ _ => ⟨"SLT", 0xFE00707F, 0x00002033⟩
  | .sltu _ _ _ => ⟨"SLTU", 0xFE00707F, 0x00003033⟩
  | .xor _ _ _ => ⟨"XOR", 0xFE00707F, 0x00004033⟩
  | .srl _ _ _ => ⟨"SRL", 0xFE00707F, 0x00005033⟩
  | .sra _ _ _ => ⟨"SRA", 0xFE00707F, 0x40005033⟩
  | .or _ _ _ => ⟨"OR", 0xFE00707F, 0x00006033⟩
  | .and _ _ _ => ⟨"AND", 0xFE00707F, 0x00007033⟩

/-- The bits of the word the decoder looks at: all but funct3 of JALR, insn[31:25] of SLLI, and insn[31], insn[29:25]
of SRLI and SRAI (R96). -/
def Instr.inspectedMask : Instr → Word
  | .lui _ _ => 0xFFFFFFFF
  | .auipc _ _ => 0xFFFFFFFF
  | .jal _ _ => 0xFFFFFFFF
  | .beq _ _ _ => 0xFFFFFFFF
  | .bne _ _ _ => 0xFFFFFFFF
  | .blt _ _ _ => 0xFFFFFFFF
  | .bge _ _ _ => 0xFFFFFFFF
  | .bltu _ _ _ => 0xFFFFFFFF
  | .bgeu _ _ _ => 0xFFFFFFFF
  | .lb _ _ _ => 0xFFFFFFFF
  | .lh _ _ _ => 0xFFFFFFFF
  | .lw _ _ _ => 0xFFFFFFFF
  | .lbu _ _ _ => 0xFFFFFFFF
  | .lhu _ _ _ => 0xFFFFFFFF
  | .addi _ _ _ => 0xFFFFFFFF
  | .slti _ _ _ => 0xFFFFFFFF
  | .sltiu _ _ _ => 0xFFFFFFFF
  | .xori _ _ _ => 0xFFFFFFFF
  | .ori _ _ _ => 0xFFFFFFFF
  | .andi _ _ _ => 0xFFFFFFFF
  | .slli _ _ _ => 0x01FFFFFF
  | .srli _ _ _ => 0x41FFFFFF
  | .srai _ _ _ => 0x41FFFFFF
  | .jalr _ _ _ => 0xFFFF8FFF
  | .sb _ _ _ => 0xFFFFFFFF
  | .sh _ _ _ => 0xFFFFFFFF
  | .sw _ _ _ => 0xFFFFFFFF
  | .add _ _ _ => 0xFFFFFFFF
  | .sub _ _ _ => 0xFFFFFFFF
  | .sll _ _ _ => 0xFFFFFFFF
  | .slt _ _ _ => 0xFFFFFFFF
  | .sltu _ _ _ => 0xFFFFFFFF
  | .xor _ _ _ => 0xFFFFFFFF
  | .srl _ _ _ => 0xFFFFFFFF
  | .sra _ _ _ => 0xFFFFFFFF
  | .or _ _ _ => 0xFFFFFFFF
  | .and _ _ _ => 0xFFFFFFFF

end Sys2Proof
end

