-- ==== Sys2Proof/Config.lean ====
section
/-! DEFINITION. The parameters of the hardware (spec/00_scope.md R7): what is fixed when an instance is
constructed. `Params` is what a step reads; `Config` adds what construction alone reads. -/

namespace Sys2Proof

/-- `MEM_SIZE`, the capacity N = 2^log2 bytes with 2 <= log2 <= 32 (R54, decision D3, log 5). Other sizes are
refused: no value of this type stands for one. -/
structure MemSize where
  log2 : Nat
  two_le : 2 ≤ log2
  le_32 : log2 ≤ 32
  deriving DecidableEq, Repr

/-- N, in bytes. -/
def MemSize.bytes (k : MemSize) : Nat := 2 ^ k.log2

/-- The admitted size of `n` bytes, and `none` where R54 refuses the size. -/
def MemSize.ofBytes (n : Nat) : Option MemSize :=
  if h : 2 ≤ n.log2 ∧ n.log2 ≤ 32 ∧ n = 2 ^ n.log2 then some ⟨n.log2, h.1, h.2.1⟩ else none

/-- The default N = 65536 (R7). -/
def MemSize.default : MemSize := ⟨16, by decide, by decide⟩

/-- `AUIPC_SHIFT` (R7, R142): the two admitted values. -/
inductive AuipcShift where
  /-- 0, the documented behaviour. -/
  | unshifted
  /-- 12, the RV32I behaviour. -/
  | rv32i
  deriving DecidableEq, Repr

/-- The number of places the 20-bit field is shifted by. -/
def AuipcShift.amount : AuipcShift → Nat
  | .unshifted => 0
  | .rv32i => 12

/-- `UNMATCHED_POLICY` (R7, R225, R226). -/
inductive UnmatchedPolicy where
  /-- The documented behaviour: a word no handler matches is a silent no-op. -/
  | nop
  /-- The recommended alternative: it raises IllegalInstruction and the run is over. -/
  | fault
  deriving DecidableEq, Repr

/-- The configuration a step reads; no instruction changes it (R20). -/
structure Params where
  memSize : MemSize
  auipcShift : AuipcShift
  unmatchedPolicy : UnmatchedPolicy
  deriving DecidableEq, Repr

/-- The values R7 gives for the hardware as documented. -/
def Params.default : Params := ⟨MemSize.default, .unshifted, .nop⟩

/-- Everything an instance is constructed from (R7, R40, R260). -/
structure Config where
  params : Params
  /-- `RESET_PC`. -/
  resetPc : Word
  /-- `RESET_REGS`; its entry 0 is not used (x0 is 0, always). -/
  resetRegs : Vector Word 32
  /-- `INIT_MEM`: the loader's writes in the order it makes them (address, byte), over zeros. -/
  initMem : List (Word × Byte)
  deriving DecidableEq, Repr

/-- The defaults of R7 with nothing loaded (decisions D13, D14, D15: log 2, 3, 4). -/
def Config.default : Config := ⟨Params.default, 0, Vector.replicate 32 0, []⟩

end Sys2Proof
end

