-- ==== Sys2Proof/Machine/State.lean ====
section
/-! DEFINITION. The state of one instance, the reasons a step can stop, and the state after reset
(spec/10_state.md R20 to R41). -/

namespace Sys2Proof.Machine

/-- The bytes that are not `Memory.blank`, by address, addresses strictly rising (`Memory.wf`). -/
abbrev Memory := List Host.Cell

/-- The whole state (R20). `params` is configuration, not architectural state: `step` is given the state alone, so the
state carries it, and nothing changes it (log 1). -/
structure State where
  /-- x[0] .. x[31] (R22). Read and written through `State.x` and `State.setX` only. -/
  regs : Vector Word 32
  /-- The program counter, a 32-bit byte address (R28). -/
  pc : Word
  /-- mem[0] .. mem[N-1] (R39, R50). -/
  mem : Memory
  params : Params
  deriving DecidableEq, Repr

/-- Why the machine stops with a fault. -/
inductive Fault where
  /-- Raised by the step of an unmatched word under `UNMATCHED_POLICY = fault`, with the pc and the word; no register,
  memory byte or pc changes (R226). Safe: the spec's own condition, at a word the documented hardware runs past. -/
  | illegalInstruction (pc insn : Word)
  deriving DecidableEq, Repr

/-- Why a request has no meaning. No step is refused. -/
inductive Refusal where
  /-- An instruction without a meaning; no arm of `exec` answers it. Safe. -/
  | notModelled (mnemonic : String)
  /-- Answered by the observation port `getRegisterValue` for an index outside 0..31 (R26, U11; log 16). Safe. -/
  | registerIndexOutside (index : Int)
  deriving DecidableEq, Repr

/-- Construction of an instance, which is reset (R260), before the loader writes: x0 is 0, the other registers are
`RESET_REGS`, the pc is `RESET_PC`, every byte is 0 (R40, R261; decisions D13, D14, D15: log 2, 3, 4). -/
def State.construct (c : Config) : State :=
  { regs := c.resetRegs.set 0 0, pc := c.resetPc, mem := [], params := c.params }

/-- The machine right after reset, with the defaults of R7. -/
def State.reset : State := State.construct Config.default

end Sys2Proof.Machine
end

