-- ==== Sys2Proof/Machine/Ops.lean ====
section
/-! DEFINITION. The named operations on memory, registers and the pc that every meaning is written over
(spec/10_state.md R22 to R34, spec/20_memory.md R50 to R61, spec/40_step.md R122 to R126, R131 to R133), and what an
unmatched word does (spec/49_unmatched.md R225, R226). The hardware takes no exception and returns from none (R240,
R245, R246): raising IllegalInstruction is the one event there is. -/

namespace Sys2Proof.Machine

/-! ### Memory as a list of bytes by address -/

/-- What an unlisted address reads as (R40: 0 elsewhere; decision D15, log 4). -/
def Memory.blank : Byte := 0

/-- The canonical form from address `lo` on: addresses strictly rising, no blank byte listed. -/
def Memory.wfFrom : Nat → Memory → Bool
  | _, [] => true
  | lo, (a, b) :: m => decide (lo ≤ a) && (b != Memory.blank) && Memory.wfFrom (a + 1) m

/-- The canonical form: equal memories are equal lists. -/
def Memory.wf (m : Memory) : Bool := Memory.wfFrom 0 m

/-- Every listed address is one of the N addresses (R50). -/
def Memory.within (n : Nat) (m : Memory) : Bool := m.all fun c => decide (c.1 < n)

def Memory.read : Memory → Nat → Byte
  | [], _ => Memory.blank
  | (a, b) :: m, k => if a = k then b else Memory.read m k

/-- `m` with nothing listed at `k`. -/
def Memory.drop : Memory → Nat → Memory
  | [], _ => []
  | (a, b) :: m, k => if a = k then Memory.drop m k else (a, b) :: Memory.drop m k

/-- `m`, which lists nothing at `k`, with `v` listed there, in order. -/
def Memory.insert : Memory → Nat → Byte → Memory
  | [], k, v => [(k, v)]
  | (a, b) :: m, k, v => if k < a then (k, v) :: (a, b) :: m else (a, b) :: Memory.insert m k v

def Memory.write (m : Memory) (k : Nat) (v : Byte) : Memory :=
  if v = Memory.blank then m.drop k else (m.drop k).insert k v

/-! ### Bytes by 32-bit address -/

/-- N (R50, R54). -/
def State.memBytes (s : State) : Nat := s.params.memSize.bytes

/-- The cell a 32-bit address names: `addr mod N` (R51, R52, R53). -/
def State.cellOf (s : State) (a : Word) : Nat := a.toNat % s.memBytes

/-- `read(addr)` (R51): total, no side effect (R53, R64). -/
def State.byteAt (s : State) (a : Word) : Byte := s.mem.read (s.cellOf a)

/-- `write(addr, value)` for a value of 8 bits (R52): total, no other byte changes. -/
def State.setByte (s : State) (a : Word) (v : Byte) : State := { s with mem := s.mem.write (s.cellOf a) v }

/-! ### Little-endian accesses of 1, 2 and 4 bytes -/

/-- The widths of R56, R57. -/
inductive Width where
  | byte
  | half
  | word
  deriving DecidableEq, Repr

def Width.bytes : Width → Nat
  | .byte => 1
  | .half => 2
  | .word => 4

/-- The `n` bytes at addr, addr+1, ..., each address wrapped on its own (R56, R61). -/
def State.bytesAt (s : State) (a : Word) : Nat → List Byte
  | 0 => []
  | n + 1 => s.byteAt a :: s.bytesAt (a + 1) n

/-- Little-endian assembly: the first byte is the least significant (R56). -/
def assemble : List Byte → Nat
  | [] => 0
  | b :: bs => b.toNat + 256 * assemble bs

/-- `MemRead(addr, n)` as a word; the bits above 8n are 0 (R56). -/
def State.memRead (s : State) (a : Word) (w : Width) : Word := BitVec.ofNat 32 (assemble (s.bytesAt a w.bytes))

/-- The low `n` bytes of a word, least significant first (R57). -/
def lowBytes (v : Word) : Nat → List Byte
  | 0 => []
  | n + 1 => v.extractLsb' 0 8 :: lowBytes (v >>> 8) n

def State.setBytes (s : State) (a : Word) : List Byte → State
  | [] => s
  | b :: bs => (s.setByte a b).setBytes (a + 1) bs

/-- `MemWrite(addr, n, v)` (R57). -/
def State.memWrite (s : State) (a : Word) (w : Width) (v : Word) : State := s.setBytes a (lowBytes v w.bytes)

/-! ### Registers -/

/-- The read ports of the register file: `x[0]` is 0, whatever was written (R22, R132). -/
def State.x (s : State) (i : Reg) : Word :=
  if i = 0 then 0 else s.regs[i.toNat]'(by have := i.isLt; omega)

/-- The guarded write `x[i] <- v` (R23): discarded for index 0. A word is already reduced modulo 2^32. -/
def State.setX (s : State) (i : Reg) (v : Word) : State :=
  if i = 0 then s else { s with regs := s.regs.set i.toNat v (by have := i.isLt; omega) }

/-! ### The program counter -/

/-- The default next program counter, pc + 4 modulo 2^32 (R123); also the link value of JAL and JALR (R150, R195). -/
def State.seqPc (s : State) : Word := s.pc + 4

/-- Commit: `pc := next_pc` (R126). next_pc is an argument, not state (R34). -/
def State.commit (s : State) (nextPc : Word) : State := { s with pc := nextPc }

/-! ### The endings of the meanings -/

/-- Write `rd`, go on at pc + 4: every instruction with a result and no jump (R25, R29). -/
def State.retire (s : State) (rd : Reg) (v : Word) : State := (s.setX rd v).commit s.seqPc

/-- Write the link value to `rd`, go on at `target` (R150, R195). The target was computed before the write (R125). -/
def State.jumpAndLink (s : State) (rd : Reg) (target : Word) : State := (s.setX rd s.seqPc).commit target

/-- Go on at `target` when taken, at pc + 4 otherwise; no register or memory byte is written (R160). -/
def State.branch (s : State) (taken : Bool) (target : Word) : State := s.commit (if taken then target else s.seqPc)

/-- Store the low bytes of `v` at `a`, go on at pc + 4 (R200). -/
def State.store (s : State) (a : Word) (w : Width) (v : Word) : State := (s.memWrite a w v).commit s.seqPc

/-! ### Fetch and the unmatched word -/

/-- Fetch: `MemRead(pc, 4)` (R122). -/
def State.fetch (s : State) : Word := s.memRead s.pc .word

/-- Raise IllegalInstruction: the run is over with nothing changed (R226, R242). -/
def raiseIllegalInstruction (insn : Word) (s : State) : Host.Outcome State Fault Refusal :=
  .fault (.illegalInstruction s.pc insn)

/-- The step of an unmatched word (R225, R226). -/
def unmatched (insn : Word) (s : State) : Host.Outcome State Fault Refusal :=
  match s.params.unmatchedPolicy with
  | .nop => .next (s.commit s.seqPc)
  | .fault => raiseIllegalInstruction insn s

end Sys2Proof.Machine
end

