-- ==== Sys2Proof/Machine/Flags.lean ====
section
/-! DEFINITION. Comparisons. The hardware has no flag and no condition code (spec/10_state.md R36): a comparison is
written 0 or 1 into a register (SLT, SLTU, SLTI, SLTIU) or decides a branch inside the same instruction
(spec/40_step.md R129, R130). -/

namespace Sys2Proof.Machine

/-- Signed less than: s(a) < s(b) (R9). -/
def signedLess (a b : Word) : Bool := decide (a.toInt < b.toInt)

/-- Unsigned less than: u(a) < u(b) (R9). -/
def unsignedLess (a b : Word) : Bool := decide (a.toNat < b.toNat)

/-- The word a comparison writes: exactly 0 or 1 (R182). -/
def truthWord (c : Bool) : Word := if c then 1 else 0

/-- The six conditions of R130. -/
inductive BranchCond where
  | eq
  | ne
  | lt
  | ge
  | ltu
  | geu
  deriving DecidableEq, Repr

/-- Whether the branch is taken (R130). -/
def BranchCond.taken (c : BranchCond) (a b : Word) : Bool :=
  match c with
  | .eq => decide (a = b)
  | .ne => !decide (a = b)
  | .lt => signedLess a b
  | .ge => !signedLess a b
  | .ltu => unsignedLess a b
  | .geu => !unsignedLess a b

end Sys2Proof.Machine
end

