-- ==== Sys2Proof/Machine/Operands.lean ====
section
/-! DEFINITION. Operands: the values of the immediates (spec/30_encoding.md R88 to R93), the effective addresses
(spec/20_memory.md R55), the values a load writes (spec/40_step.md R131) and the alu (R129). -/

namespace Sys2Proof.Machine

/-- `sext_N` of an immediate field (R89 to R92). -/
def sextWord {n : Nat} (v : BitVec n) : Word := v.signExtend 32

/-- LUI: `imm20 << 12` (R88, R141; log 7). -/
def immUpper (imm20 : BitVec 20) : Word := imm20.setWidth 32 <<< 12

/-- AUIPC: `zext_20(imm20) << AUIPC_SHIFT` (R88, R142; log 6). -/
def immAuipc (sh : AuipcShift) (imm20 : BitVec 20) : Word := imm20.setWidth 32 <<< sh.amount

/-- Base register plus sign-extended displacement, modulo 2^32 (R55, R170, R200). -/
def State.effAddr (s : State) (rs1 : Reg) (imm : BitVec 12) : Word := s.x rs1 + sextWord imm

/-- The target of a pc-relative jump or branch, modulo 2^32 (R30, R150, R160). -/
def State.pcTarget {n : Nat} (s : State) (offset : BitVec n) : Word := s.pc + sextWord offset

/-- The target of JALR: the sum, then bit 0 cleared (R195). -/
def State.jalrTarget (s : State) (rs1 : Reg) (imm : BitVec 12) : Word := s.effAddr rs1 imm &&& 0xFFFFFFFE

/-- A signed load: `sext_8n(MemRead(addr, n))` (R131, R171, R172). -/
def State.loadSigned (s : State) (a : Word) (w : Width) : Word :=
  ((s.memRead a w).setWidth (8 * w.bytes)).signExtend 32

/-- An unsigned load or a word load: `zext_8n(MemRead(addr, n))` (R131, R173 to R175). -/
def State.loadUnsigned (s : State) (a : Word) (w : Width) : Word := s.memRead a w

/-- The operations of the alu (R129). -/
inductive AluOp where
  | add
  | sub
  | sll
  | slt
  | sltu
  | xor
  | srl
  | sra
  | or
  | and
  deriving DecidableEq, Repr

/-- The alu: a pure function of two words, with no flag and no overflow signal (R129; the operations are the RV32I ones,
log 12). The shifts use the low 5 bits of `b` (R210). -/
def alu (op : AluOp) (a b : Word) : Word :=
  match op with
  | .add => a + b
  | .sub => a - b
  | .sll => a <<< (b.toNat % 32)
  | .slt => truthWord (signedLess a b)
  | .sltu => truthWord (unsignedLess a b)
  | .xor => a ^^^ b
  | .srl => a >>> (b.toNat % 32)
  | .sra => a.sshiftRight (b.toNat % 32)
  | .or => a ||| b
  | .and => a &&& b

end Sys2Proof.Machine
end

