-- ==== Sys2Proof/Machine/AluImmediate.lean ====
section
/-! DEFINITION. ALU with immediate (spec/45_alu_immediate.md). -/

namespace Sys2Proof.Machine

/-- R181. -/
def execAddi (rd rs1 : Reg) (imm : BitVec 12) (s : State) : Host.Outcome State Fault Refusal :=
  .next (s.retire rd (alu .add (s.x rs1) (sextWord imm)))

/-- R182. -/
def execSlti (rd rs1 : Reg) (imm : BitVec 12) (s : State) : Host.Outcome State Fault Refusal :=
  .next (s.retire rd (alu .slt (s.x rs1) (sextWord imm)))

/-- R183. -/
def execSltiu (rd rs1 : Reg) (imm : BitVec 12) (s : State) : Host.Outcome State Fault Refusal :=
  .next (s.retire rd (alu .sltu (s.x rs1) (sextWord imm)))

/-- R184. -/
def execXori (rd rs1 : Reg) (imm : BitVec 12) (s : State) : Host.Outcome State Fault Refusal :=
  .next (s.retire rd (alu .xor (s.x rs1) (sextWord imm)))

/-- R185. -/
def execOri (rd rs1 : Reg) (imm : BitVec 12) (s : State) : Host.Outcome State Fault Refusal :=
  .next (s.retire rd (alu .or (s.x rs1) (sextWord imm)))

/-- R186. -/
def execAndi (rd rs1 : Reg) (imm : BitVec 12) (s : State) : Host.Outcome State Fault Refusal :=
  .next (s.retire rd (alu .and (s.x rs1) (sextWord imm)))

/-- R187. -/
def execSlli (rd rs1 : Reg) (shamt : BitVec 5) (s : State) : Host.Outcome State Fault Refusal :=
  .next (s.retire rd (alu .sll (s.x rs1) (shamt.setWidth 32)))

/-- R188. -/
def execSrli (rd rs1 : Reg) (shamt : BitVec 5) (s : State) : Host.Outcome State Fault Refusal :=
  .next (s.retire rd (alu .srl (s.x rs1) (shamt.setWidth 32)))

/-- R189. -/
def execSrai (rd rs1 : Reg) (shamt : BitVec 5) (s : State) : Host.Outcome State Fault Refusal :=
  .next (s.retire rd (alu .sra (s.x rs1) (shamt.setWidth 32)))

end Sys2Proof.Machine
end

