-- ==== Sys2Proof/Machine/AluRegister.lean ====
section
/-! DEFINITION. Register-register ALU (spec/48_alu_register.md). -/

namespace Sys2Proof.Machine

/-- R211. -/
def execAdd (rd rs1 rs2 : Reg) (s : State) : Host.Outcome State Fault Refusal :=
  .next (s.retire rd (alu .add (s.x rs1) (s.x rs2)))

/-- R212. -/
def execSub (rd rs1 rs2 : Reg) (s : State) : Host.Outcome State Fault Refusal :=
  .next (s.retire rd (alu .sub (s.x rs1) (s.x rs2)))

/-- R213. -/
def execSll (rd rs1 rs2 : Reg) (s : State) : Host.Outcome State Fault Refusal :=
  .next (s.retire rd (alu .sll (s.x rs1) (s.x rs2)))

/-- R214. -/
def execSlt (rd rs1 rs2 : Reg) (s : State) : Host.Outcome State Fault Refusal :=
  .next (s.retire rd (alu .slt (s.x rs1) (s.x rs2)))

/-- R215. -/
def execSltu (rd rs1 rs2 : Reg) (s : State) : Host.Outcome State Fault Refusal :=
  .next (s.retire rd (alu .sltu (s.x rs1) (s.x rs2)))

/-- R216. -/
def execXor (rd rs1 rs2 : Reg) (s : State) : Host.Outcome State Fault Refusal :=
  .next (s.retire rd (alu .xor (s.x rs1) (s.x rs2)))

/-- R217. -/
def execSrl (rd rs1 rs2 : Reg) (s : State) : Host.Outcome State Fault Refusal :=
  .next (s.retire rd (alu .srl (s.x rs1) (s.x rs2)))

/-- R218. -/
def execSra (rd rs1 rs2 : Reg) (s : State) : Host.Outcome State Fault Refusal :=
  .next (s.retire rd (alu .sra (s.x rs1) (s.x rs2)))

/-- R219. -/
def execOr (rd rs1 rs2 : Reg) (s : State) : Host.Outcome State Fault Refusal :=
  .next (s.retire rd (alu .or (s.x rs1) (s.x rs2)))

/-- R220. -/
def execAnd (rd rs1 rs2 : Reg) (s : State) : Host.Outcome State Fault Refusal :=
  .next (s.retire rd (alu .and (s.x rs1) (s.x rs2)))

end Sys2Proof.Machine
end

