-- ==== Sys2Proof/Machine/Branch.lean ====
section
/-! DEFINITION. Conditional branches (spec/43_branches.md). -/

namespace Sys2Proof.Machine

/-- R161. -/
def execBeq (rs1 rs2 : Reg) (offset : BitVec 13) (s : State) : Host.Outcome State Fault Refusal :=
  .next (s.branch (BranchCond.taken .eq (s.x rs1) (s.x rs2)) (s.pcTarget offset))

/-- R162. -/
def execBne (rs1 rs2 : Reg) (offset : BitVec 13) (s : State) : Host.Outcome State Fault Refusal :=
  .next (s.branch (BranchCond.taken .ne (s.x rs1) (s.x rs2)) (s.pcTarget offset))

/-- R163. -/
def execBlt (rs1 rs2 : Reg) (offset : BitVec 13) (s : State) : Host.Outcome State Fault Refusal :=
  .next (s.branch (BranchCond.taken .lt (s.x rs1) (s.x rs2)) (s.pcTarget offset))

/-- R164. -/
def execBge (rs1 rs2 : Reg) (offset : BitVec 13) (s : State) : Host.Outcome State Fault Refusal :=
  .next (s.branch (BranchCond.taken .ge (s.x rs1) (s.x rs2)) (s.pcTarget offset))

/-- R165. -/
def execBltu (rs1 rs2 : Reg) (offset : BitVec 13) (s : State) : Host.Outcome State Fault Refusal :=
  .next (s.branch (BranchCond.taken .ltu (s.x rs1) (s.x rs2)) (s.pcTarget offset))

/-- R166. -/
def execBgeu (rs1 rs2 : Reg) (offset : BitVec 13) (s : State) : Host.Outcome State Fault Refusal :=
  .next (s.branch (BranchCond.taken .geu (s.x rs1) (s.x rs2)) (s.pcTarget offset))

end Sys2Proof.Machine
end

