-- ==== Sys2Proof/Machine/Jump.lean ====
section
/-! DEFINITION. Jump and link JAL (spec/42_jal.md) and indirect jump and link JALR (spec/46_jalr.md). -/

namespace Sys2Proof.Machine

/-- R150. -/
def execJal (rd : Reg) (offset : BitVec 21) (s : State) : Host.Outcome State Fault Refusal :=
  .next (s.jumpAndLink rd (s.pcTarget offset))

/-- R195. -/
def execJalr (rd rs1 : Reg) (imm : BitVec 12) (s : State) : Host.Outcome State Fault Refusal :=
  .next (s.jumpAndLink rd (s.jalrTarget rs1 imm))

end Sys2Proof.Machine
end

