-- ==== Sys2Proof/Machine/Load.lean ====
section
/-! DEFINITION. Loads (spec/44_loads.md). -/

namespace Sys2Proof.Machine

/-- R171. -/
def execLb (rd rs1 : Reg) (imm : BitVec 12) (s : State) : Host.Outcome State Fault Refusal :=
  .next (s.retire rd (s.loadSigned (s.effAddr rs1 imm) .byte))

/-- R172. -/
def execLh (rd rs1 : Reg) (imm : BitVec 12) (s : State) : Host.Outcome State Fault Refusal :=
  .next (s.retire rd (s.loadSigned (s.effAddr rs1 imm) .half))

/-- R173. -/
def execLw (rd rs1 : Reg) (imm : BitVec 12) (s : State) : Host.Outcome State Fault Refusal :=
  .next (s.retire rd (s.loadUnsigned (s.effAddr rs1 imm) .word))

/-- R174. -/
def execLbu (rd rs1 : Reg) (imm : BitVec 12) (s : State) : Host.Outcome State Fault Refusal :=
  .next (s.retire rd (s.loadUnsigned (s.effAddr rs1 imm) .byte))

/-- R175. -/
def execLhu (rd rs1 : Reg) (imm : BitVec 12) (s : State) : Host.Outcome State Fault Refusal :=
  .next (s.retire rd (s.loadUnsigned (s.effAddr rs1 imm) .half))

end Sys2Proof.Machine
end

