-- ==== Sys2Proof/Machine/Store.lean ====
section
/-! DEFINITION. Stores (spec/47_stores.md). -/

namespace Sys2Proof.Machine

/-- R201. -/
def execSb (rs1 rs2 : Reg) (imm : BitVec 12) (s : State) : Host.Outcome State Fault Refusal :=
  .next (s.store (s.effAddr rs1 imm) .byte (s.x rs2))

/-- R202. -/
def execSh (rs1 rs2 : Reg) (imm : BitVec 12) (s : State) : Host.Outcome State Fault Refusal :=
  .next (s.store (s.effAddr rs1 imm) .half (s.x rs2))

/-- R203. -/
def execSw (rs1 rs2 : Reg) (imm : BitVec 12) (s : State) : Host.Outcome State Fault Refusal :=
  .next (s.store (s.effAddr rs1 imm) .word (s.x rs2))

end Sys2Proof.Machine
end

