-- ==== Sys2Proof/Machine/Upper.lean ====
section
/-! DEFINITION. Upper-immediate instructions LUI, AUIPC (spec/41_upper_immediate.md). -/

namespace Sys2Proof.Machine

/-- R141. -/
def execLui (rd : Reg) (imm20 : BitVec 20) (s : State) : Host.Outcome State Fault Refusal :=
  .next (s.retire rd (immUpper imm20))

/-- R142. -/
def execAuipc (rd : Reg) (imm20 : BitVec 20) (s : State) : Host.Outcome State Fault Refusal :=
  .next (s.retire rd (s.pc + immAuipc s.params.auipcShift imm20))

end Sys2Proof.Machine
end

