-- ==== Sys2Proof/Machine/Driver.lean ====
section
/-! DEFINITION. What the host does from outside the core: the loader before the first step (spec/70_reset_and_hazards.md
R262) and the observation ports between steps (spec/10_state.md R26, R32; spec/40_step.md R135). None of it is part of
a step (log 18). -/

namespace Sys2Proof.Machine

/-- The loader's `write(address, value)`: `value & 0xFF` at `address mod N` (R52). -/
def State.hostWrite (s : State) (a : Word) (value : Int) : State := s.setByte a (BitVec.ofInt 8 value)

/-- The loader's and the observer's `read(address)` (R51). -/
def State.hostRead (s : State) (a : Word) : Byte := s.byteAt a

/-- One instruction word, least significant byte first (R58, R262). -/
def State.loadWord (s : State) (a : Word) (w : Word) : State := s.memWrite a .word w

/-- The loader's writes, in order. -/
def State.loadImage (s : State) : List (Word × Byte) → State
  | [] => s
  | (a, b) :: image => (s.setByte a b).loadImage image

/-- The state before the first step: construction, then `INIT_MEM` (R40, R261, R262). -/
def State.boot (c : Config) : State := (State.construct c).loadImage c.initMem

/-- `getRegisterValue(index)`: the register read as signed, for an index in 0..31; refused outside (R26, log 16). -/
def State.getRegisterValue (s : State) (index : Int) : Except Refusal Int :=
  if 0 ≤ index ∧ index ≤ 31 then .ok (s.x (BitVec.ofInt 5 index)).toInt else .error (.registerIndexOutside index)

/-- `getProgramCounter()`: the stored word, unsigned, not reduced modulo N (R32). -/
def State.getProgramCounter (s : State) : Nat := s.pc.toNat

end Sys2Proof.Machine
end

