-- ==== Sys2Proof/Machine/Step.lean ====
section
/-! DEFINITION. One step: fetch, decode, execute and commit (spec/40_step.md R121). -/

namespace Sys2Proof.Machine

/-- The step (R120, R121). The commit is inside each meaning and inside `unmatched`. -/
def step (s : State) : Host.Outcome State Fault Refusal :=
  match decode s.fetch with
  | .ok i => exec i s
  | .error _ => unmatched s.fetch s

/-- `s` with the instruction whose bits are `w` (`nbits` of them given, the rest 0) stored where the next fetch reads,
as the loader stores a word (R262; log 17). -/
def State.withFetchWord (s : State) (nbits w : Nat) : State := s.loadWord s.pc (BitVec.ofNat 32 (w % 2 ^ nbits))

end Sys2Proof.Machine
end

