-- ==== Sys2Proof/Safety.lean ====
section
/-! DEFINITION. The terms claims are stated in: what a step left as it was (frames), the invariants of the machine, and
runs that go on. -/

namespace Sys2Proof.Machine

/-- `t` differs from `s` in register `rd`, which holds `v` (nothing where `rd` is x0: R23), and perhaps in the pc. Every
other register, every byte of memory and the configuration are as before. -/
structure RegisterResult (s t : State) (rd : Reg) (v : Word) : Prop where
  registers : ∀ r : Reg, t.x r = if r = 0 then 0 else if r = rd then v else s.x r
  memory : ∀ a : Word, t.byteAt a = s.byteAt a
  params : t.params = s.params

/-- `t` differs from `s` in nothing but perhaps the pc. -/
structure NoResult (s t : State) : Prop where
  registers : ∀ r : Reg, t.x r = s.x r
  memory : ∀ a : Word, t.byteAt a = s.byteAt a
  params : t.params = s.params

/-- `b` names one of the cells of the access of width `w` at `a` (R56, R57: each address wrapped on its own). -/
def State.touches (s : State) (a : Word) (w : Width) (b : Word) : Prop :=
  ∃ i, i < w.bytes ∧ s.cellOf b = s.cellOf (a + BitVec.ofNat 32 i)

/-- `t` differs from `s` in the bytes stored at `a`, which are the low bytes of `v`, least significant first (R57), and
perhaps in the pc. -/
structure StoreResult (s t : State) (a : Word) (w : Width) (v : Word) : Prop where
  registers : ∀ r : Reg, t.x r = s.x r
  stored : ∀ i, i < w.bytes → t.byteAt (a + BitVec.ofNat 32 i) = v.extractLsb' (8 * i) 8
  memory : ∀ b : Word, ¬ s.touches a w b → t.byteAt b = s.byteAt b
  params : t.params = s.params

/-- The invariant of the machine: memory is in its canonical form and lists addresses below N only, and the slot of x0
holds 0 (R22, R50). -/
def State.Inv (s : State) : Prop :=
  s.mem.wf = true ∧ s.mem.within s.memBytes = true ∧ s.regs[0] = 0

/-- The pc is even (R31). -/
def State.PcEven (s : State) : Prop := s.pc.getLsbD 0 = false

/-- The register an instruction writes (R25). -/
def destination : Instr → Option Reg
  | .lui rd _ => some rd
  | .auipc rd _ => some rd
  | .jal rd _ => some rd
  | .beq _ _ _ => none
  | .bne _ _ _ => none
  | .blt _ _ _ => none
  | .bge _ _ _ => none
  | .bltu _ _ _ => none
  | .bgeu _ _ _ => none
  | .lb rd _ _ => some rd
  | .lh rd _ _ => some rd
  | .lw rd _ _ => some rd
  | .lbu rd _ _ => some rd
  | .lhu rd _ _ => some rd
  | .addi rd _ _ => some rd
  | .slti rd _ _ => some rd
  | .sltiu rd _ _ => some rd
  | .xori rd _ _ => some rd
  | .ori rd _ _ => some rd
  | .andi rd _ _ => some rd
  | .slli rd _ _ => some rd
  | .srli rd _ _ => some rd
  | .srai rd _ _ => some rd
  | .jalr rd _ _ => some rd
  | .sb _ _ _ => none
  | .sh _ _ _ => none
  | .sw _ _ _ => none
  | .add rd _ _ => some rd
  | .sub rd _ _ => some rd
  | .sll rd _ _ => some rd
  | .slt rd _ _ => some rd
  | .sltu rd _ _ => some rd
  | .xor rd _ _ => some rd
  | .srl rd _ _ => some rd
  | .sra rd _ _ => some rd
  | .or rd _ _ => some rd
  | .and rd _ _ => some rd

/-- The registers an instruction reads (R25). -/
def sources : Instr → List Reg
  | .lui _ _ => []
  | .auipc _ _ => []
  | .jal _ _ => []
  | .beq rs1 rs2 _ => [rs1, rs2]
  | .bne rs1 rs2 _ => [rs1, rs2]
  | .blt rs1 rs2 _ => [rs1, rs2]
  | .bge rs1 rs2 _ => [rs1, rs2]
  | .bltu rs1 rs2 _ => [rs1, rs2]
  | .bgeu rs1 rs2 _ => [rs1, rs2]
  | .lb _ rs1 _ => [rs1]
  | .lh _ rs1 _ => [rs1]
  | .lw _ rs1 _ => [rs1]
  | .lbu _ rs1 _ => [rs1]
  | .lhu _ rs1 _ => [rs1]
  | .addi _ rs1 _ => [rs1]
  | .slti _ rs1 _ => [rs1]
  | .sltiu _ rs1 _ => [rs1]
  | .xori _ rs1 _ => [rs1]
  | .ori _ rs1 _ => [rs1]
  | .andi _ rs1 _ => [rs1]
  | .slli _ rs1 _ => [rs1]
  | .srli _ rs1 _ => [rs1]
  | .srai _ rs1 _ => [rs1]
  | .jalr _ rs1 _ => [rs1]
  | .sb rs1 rs2 _ => [rs1, rs2]
  | .sh rs1 rs2 _ => [rs1, rs2]
  | .sw rs1 rs2 _ => [rs1, rs2]
  | .add _ rs1 rs2 => [rs1, rs2]
  | .sub _ rs1 rs2 => [rs1, rs2]
  | .sll _ rs1 rs2 => [rs1, rs2]
  | .slt _ rs1 rs2 => [rs1, rs2]
  | .sltu _ rs1 rs2 => [rs1, rs2]
  | .xor _ rs1 rs2 => [rs1, rs2]
  | .srl _ rs1 rs2 => [rs1, rs2]
  | .sra _ rs1 rs2 => [rs1, rs2]
  | .or _ rs1 rs2 => [rs1, rs2]
  | .and _ rs1 rs2 => [rs1, rs2]

/-- What a store writes to: the address, computed with the function the meaning uses, and the width; `none` for an
instruction that stores nothing (R62). -/
def storeTarget (s : State) : Instr → Option (Word × Width)
  | .sb rs1 _ imm => some (s.effAddr rs1 imm, .byte)
  | .sh rs1 _ imm => some (s.effAddr rs1 imm, .half)
  | .sw rs1 _ imm => some (s.effAddr rs1 imm, .word)
  | _ => none

/-- Steps can be taken for ever: no number of steps ends in a fault or a refusal. -/
def State.NeverStops (s : State) : Prop := ∀ n : Nat, ∃ t : State, Host.Core.run Sys2Proof.core n s = .next t

end Sys2Proof.Machine
end

