-- ==== Sys2Proof/Certificates/Slice0/Obligations.lean ====
section
/-! DEFINITION. The statements for the provers. -/

open Sys2Proof Sys2Proof.Machine

namespace Sys2Proof.Claims

/-! The fields of an instruction word as the formats of spec/30_encoding.md give them (R81, R84), written apart from the
decoder. -/

def opcodeOf (w : Word) : BitVec 7 := w.extractLsb 6 0
def rdOf (w : Word) : Reg := w.extractLsb 11 7
def funct3Of (w : Word) : BitVec 3 := w.extractLsb 14 12
def rs1Of (w : Word) : Reg := w.extractLsb 19 15
def rs2Of (w : Word) : Reg := w.extractLsb 24 20
def funct7Of (w : Word) : BitVec 7 := w.extractLsb 31 25
def offsetBOf (w : Word) : BitVec 13 :=
  w.extractLsb 31 31 ++ w.extractLsb 7 7 ++ w.extractLsb 30 25 ++ w.extractLsb 11 8 ++ 0#1

/-- The fetched word is no jump and no branch that is taken; an unmatched word only under the policy nop (R29). -/
def fallsThrough (s : State) : Bool :=
  match decode s.fetch with
  | .ok (.jal _ _) => false
  | .ok (.jalr _ _ _) => false
  | .ok (.beq rs1 rs2 _) => decide (s.x rs1 ≠ s.x rs2)
  | .ok (.bne rs1 rs2 _) => decide (s.x rs1 = s.x rs2)
  | .ok (.blt rs1 rs2 _) => decide ((s.x rs2).toInt ≤ (s.x rs1).toInt)
  | .ok (.bge rs1 rs2 _) => decide ((s.x rs1).toInt < (s.x rs2).toInt)
  | .ok (.bltu rs1 rs2 _) => decide ((s.x rs2).toNat ≤ (s.x rs1).toNat)
  | .ok (.bgeu rs1 rs2 _) => decide ((s.x rs1).toNat < (s.x rs2).toNat)
  | .ok _ => true
  | .error _ => decide (s.params.unmatchedPolicy = .nop)

/-- Every word with `insn &&& mask = pattern` decodes to the instruction `mk insn` (R95). -/
def Selects (mask pattern : Word) (mk : Word → Instr) : Prop :=
  ∀ insn : Word, insn &&& mask = pattern → decode insn = .ok (mk insn)

end Sys2Proof.Claims

open Sys2Proof.Claims

/-- At least one word of each of the eight rows of the document's table, as 95_test_vectors.md writes it (LUI
x5,0x12345; AUIPC x5,0x12345; JAL x1,-8; BNE x1,x0,-8; LW x5,-2(x0); SRAI x5,x1,31; JALR x1,8(x1); SW x2,-2(x0); SUB
x5,x1,x2), decodes to that instruction, and the all-zero, all-ones and ECALL words decode to none. That the word
with funct7 0x20 is SUB is the spec's from general knowledge (G1: log 12); the name of the reason with which the
last three are rejected is the model's choice (log 19). Rests on spec/30_encoding.md section 4;
spec/95_test_vectors.md sections 2.1 to 2.8. -/
def Obligations.WrittenOutWordsDecodeToTheirInstruction : Prop :=
  decode 0x123452B7 = .ok (.lui 5 0x12345) ∧ decode 0x12345297 = .ok (.auipc 5 0x12345) ∧
  decode 0xFF9FF0EF = .ok (.jal 1 (BitVec.ofInt 21 (-8))) ∧
  decode 0xFE009CE3 = .ok (.bne 1 0 (BitVec.ofInt 13 (-8))) ∧
  decode 0xFFE02283 = .ok (.lw 5 0 (BitVec.ofInt 12 (-2))) ∧ decode 0x41F0D293 = .ok (.srai 5 1 31) ∧
  decode 0x008080E7 = .ok (.jalr 1 1 8) ∧ decode 0xFE202F23 = .ok (.sw 0 2 (BitVec.ofInt 12 (-2))) ∧
  decode 0x402082B3 = .ok (.sub 5 1 2) ∧
  decode 0x00000000 = .error .opcode ∧ decode 0xFFFFFFFF = .error .opcode ∧ decode 0x00000073 = .error .opcode

/-- For each of the 37 instructions, with every operand at every value its field admits (offsets of JAL and branches
even), decode (encode i) is i. The encoder writes 0 in the bits the decoder does not inspect (the model's choice,
log 13), and the funct values of the R rows are the spec's from general knowledge (G1: log 12). Rests on
spec/30_encoding.md R81 to R95. -/
def Obligations.DecodeOfEncodeIsTheInstruction : Prop :=
  ∀ i : Instr, i.wellFormed = true → decode (encode i) = .ok i

/-- If a word decodes to i, the encoding of i is that word with the uninspected bits cleared: funct3 of JALR,
insn[31:25] of SLLI, insn[31] and insn[29:25] of SRLI and SRAI. What is not inspected is the spec's own decision
(D10, D11: log 9, 10); that the encoder writes 0 there is the model's choice (log 13); the funct values of the R
rows are the spec's from general knowledge (G1: log 12). Rests on spec/30_encoding.md R81 to R96. -/
def Obligations.EncodeOfDecodeKeepsEveryInspectedBit : Prop :=
  ∀ (insn : Word) (i : Instr), decode insn = .ok i → encode i = insn &&& i.inspectedMask

/-- Whatever the word, an instruction the decoder answers is well-formed: the offsets of JAL and of the branches are
even. Rests on spec/30_encoding.md R89, R90. -/
def Obligations.DecodedInstructionsAreWellFormed : Prop :=
  ∀ (insn : Word) (i : Instr), decode insn = .ok i → i.wellFormed = true

/-- For each of the 37 rows of R95 (mnemonic, mask, match) and every word: insn & mask = match if and only if the
decoder answers an instruction of that row; the rows are the table's, in its order; and a word that satisfies no row
is unmatched. The funct values of the R rows are the spec's from general knowledge (G1: log 12), and the bits the
masks of JALR, SLLI, SRLI and SRAI leave out are its decisions (D10, D11: log 9, 10). Rests on spec/30_encoding.md
R95. -/
def Obligations.OpcodeMapSelectsTheInstruction : Prop :=
  (∀ row ∈ opcodeTable, ∀ insn : Word,
      insn &&& row.mask = row.pattern ↔ ∃ i, decode insn = .ok i ∧ i.row = row) ∧
  (∀ insn : Word, (∀ row ∈ opcodeTable, insn &&& row.mask ≠ row.pattern) → ∃ why, decode insn = .error why) ∧
  opcodeTable.map Row.mnemonic =
    ["LUI", "AUIPC", "JAL", "BEQ", "BNE", "BLT", "BGE", "BLTU", "BGEU", "LB", "LH", "LW", "LBU", "LHU", "ADDI", "SLTI",
     "SLTIU", "XORI", "ORI", "ANDI", "SLLI", "SRLI", "SRAI", "JALR", "SB", "SH", "SW", "ADD", "SUB", "SLL", "SLT", "SLTU",
     "XOR", "SRL", "SRA", "OR", "AND"]

/-- Of any two rows of the opcode map no word satisfies both, so the order in which handlers are tried cannot be
observed. The funct values of the R rows are the spec's from general knowledge (G1: log 12). Rests on
spec/30_encoding.md R94. -/
def Obligations.NoWordMatchesTwoRows : Prop :=
  opcodeTable.Pairwise fun a b =>
    ∀ insn : Word, ¬ (insn &&& a.mask = a.pattern ∧ insn &&& b.mask = b.pattern)

/-- A word decodes to no instruction exactly when its opcode is none of the nine, or it is opcode 0x63 with funct3 2 or
3, opcode 0x03 with funct3 3, 6 or 7, opcode 0x23 with funct3 3 to 7, or opcode 0x33 with a pair (funct7, funct3)
that is not one of the ten. That funct7 0x20 with other funct3 is declined is the spec's decision D12 (log 11),
which pairs the ten are is its general knowledge (G1: log 12), and that every word with opcode 0x67 or 0x13 is taken
rests on its decisions D10 and D11 (log 9, 10). Rests on spec/30_encoding.md R97. -/
def Obligations.UnmatchedSetIsExactlyTheListedWords : Prop :=
  ∀ insn : Word,
    (∃ why, decode insn = .error why) ↔
      (opcodeOf insn ∉ [0x37, 0x17, 0x6F, 0x63, 0x03, 0x13, 0x67, 0x23, 0x33] ∨
        (opcodeOf insn = 0x63 ∧ funct3Of insn ∈ [2, 3]) ∨
        (opcodeOf insn = 0x03 ∧ funct3Of insn ∈ [3, 6, 7]) ∨
        (opcodeOf insn = 0x23 ∧ funct3Of insn ∈ [3, 4, 5, 6, 7]) ∨
        (opcodeOf insn = 0x33 ∧ (funct7Of insn ∉ [0x00, 0x20] ∨ (funct7Of insn = 0x20 ∧ funct3Of insn ∉ [0, 5]))))

/-- For a word that decodes to JAL, the signed value of imm_j is 2*insn[30:21] + 2^11*insn[20] + 2^12*insn[19:12] -
2^20*insn[31]; for a branch, imm_b is 2*insn[11:8] + 2^5*insn[30:25] + 2^11*insn[7] - 2^12*insn[31]; for ADDI (and
so for the I format) imm_i is insn[30:20] - 2^11*insn[31]; for a store imm_s is insn[11:7] + 2^5*insn[30:25] -
2^11*insn[31]. Each is then the word with that signed value. Formalises R89, R90, R91, R92. -/
def Obligations.ImmediatesHaveTheValuesOfTheirBits : Prop :=
  (∀ insn rd off, decode insn = .ok (.jal rd off) →
      (sextWord off).toInt = 2 * ((insn.extractLsb 30 21).toNat : Int) + 2 ^ 11 * (insn.extractLsb 20 20).toNat +
        2 ^ 12 * (insn.extractLsb 19 12).toNat - 2 ^ 20 * (insn.extractLsb 31 31).toNat) ∧
  (∀ insn rs1 rs2 off,
      (decode insn = .ok (.beq rs1 rs2 off) ∨ decode insn = .ok (.bne rs1 rs2 off) ∨ decode insn = .ok (.blt rs1 rs2 off) ∨
        decode insn = .ok (.bge rs1 rs2 off) ∨ decode insn = .ok (.bltu rs1 rs2 off) ∨
        decode insn = .ok (.bgeu rs1 rs2 off)) →
      (sextWord off).toInt = 2 * ((insn.extractLsb 11 8).toNat : Int) + 2 ^ 5 * (insn.extractLsb 30 25).toNat +
        2 ^ 11 * (insn.extractLsb 7 7).toNat - 2 ^ 12 * (insn.extractLsb 31 31).toNat) ∧
  (∀ insn rd rs1 imm,
      (decode insn = .ok (.addi rd rs1 imm) ∨ decode insn = .ok (.slti rd rs1 imm) ∨ decode insn = .ok (.sltiu rd rs1 imm) ∨
        decode insn = .ok (.xori rd rs1 imm) ∨ decode insn = .ok (.ori rd rs1 imm) ∨ decode insn = .ok (.andi rd rs1 imm) ∨
        decode insn = .ok (.jalr rd rs1 imm) ∨ decode insn = .ok (.lb rd rs1 imm) ∨ decode insn = .ok (.lh rd rs1 imm) ∨
        decode insn = .ok (.lw rd rs1 imm) ∨ decode insn = .ok (.lbu rd rs1 imm) ∨ decode insn = .ok (.lhu rd rs1 imm)) →
      (sextWord imm).toInt = ((insn.extractLsb 30 20).toNat : Int) - 2 ^ 11 * (insn.extractLsb 31 31).toNat) ∧
  (∀ insn rs1 rs2 imm,
      (decode insn = .ok (.sb rs1 rs2 imm) ∨ decode insn = .ok (.sh rs1 rs2 imm) ∨ decode insn = .ok (.sw rs1 rs2 imm)) →
      (sextWord imm).toInt = ((insn.extractLsb 11 7).toNat : Int) + 2 ^ 5 * (insn.extractLsb 30 25).toNat -
        2 ^ 11 * (insn.extractLsb 31 31).toNat)

/-- For integers 0 <= low <= high <= 31, extractBits(value, low, high) is (value >>u low) mod 2^(high-low+1); in
particular extractBits(x, 0, 31) is x unsigned for every x. Formalises R111, R112. -/
def Obligations.ExtractorReturnsTheRangeUnsigned : Prop :=
  (∀ (value : Word) (low high : Int), 0 ≤ low → low ≤ high → high ≤ 31 →
      extractBits value (.int low) (.int high) = .ok (value.toNat / 2 ^ low.toNat % 2 ^ (high - low + 1).toNat)) ∧
  (∀ x : Word, extractBits x (.int 0) (.int 31) = .ok x.toNat)

/-- If low or high is not an integer the call fails with not_integer; else if either lies outside 0..31 it fails with
out_of_range; else if low > high it fails with low_gt_high. The order is the spec's decision D16 (log 14). Rests on
spec/30_encoding.md R113, R114. -/
def Obligations.ExtractorReportsTheFirstFailedCheck : Prop :=
  ∀ (value : Word) (low high : BitIndex),
    ((low = .nonInteger ∨ high = .nonInteger) → extractBits value low high = .error .notInteger) ∧
    (∀ l h : Int, low = .int l → high = .int h →
      ((l < 0 ∨ 31 < l ∨ h < 0 ∨ 31 < h) → extractBits value low high = .error .outOfRange) ∧
      (0 ≤ l → l ≤ 31 → 0 ≤ h → h ≤ 31 → h < l → extractBits value low high = .error .lowGtHigh))

/-- For every word, extractBits with each of the index pairs of R116 succeeds, and its value is that of the field the
decoder reads: opcode, rd, funct3, rs1, rs2 and shamt, funct7, imm20, imm_i, insn[30], and the pieces of the J, B
and S immediates. Through the 5-bit ports, for every pair of indices, low <= high answers the unsigned value of bits
high down to low, and low > high answers low_gt_high. The port reading and the name of the condition are the spec's
decision D16 (log 14). Rests on spec/30_encoding.md R81, R115, R116. -/
def Obligations.DecoderExtractionsNeverFail : Prop :=
  ∀ insn : Word,
    extractBits insn (.int 0) (.int 6) = .ok (insnOpcode insn).toNat ∧
    extractBits insn (.int 7) (.int 11) = .ok (insnRd insn).toNat ∧
    extractBits insn (.int 12) (.int 14) = .ok (insnFunct3 insn).toNat ∧
    extractBits insn (.int 15) (.int 19) = .ok (insnRs1 insn).toNat ∧
    extractBits insn (.int 20) (.int 24) = .ok (insnRs2 insn).toNat ∧
    extractBits insn (.int 20) (.int 24) = .ok (insnShamt insn).toNat ∧
    extractBits insn (.int 25) (.int 31) = .ok (insnFunct7 insn).toNat ∧
    extractBits insn (.int 12) (.int 31) = .ok (insnImm20 insn).toNat ∧
    extractBits insn (.int 20) (.int 31) = .ok (insnImmI insn).toNat ∧
    extractBits insn (.int 30) (.int 30) = .ok (insnArith insn).toNat ∧
    (∃ a b c d, extractBits insn (.int 31) (.int 31) = .ok a ∧ extractBits insn (.int 12) (.int 19) = .ok b ∧
      extractBits insn (.int 20) (.int 20) = .ok c ∧ extractBits insn (.int 21) (.int 30) = .ok d ∧
      (insnOffsetJ insn).toNat = 2 ^ 20 * a + 2 ^ 12 * b + 2 ^ 11 * c + 2 * d) ∧
    (∃ a b c d, extractBits insn (.int 31) (.int 31) = .ok a ∧ extractBits insn (.int 7) (.int 7) = .ok b ∧
      extractBits insn (.int 25) (.int 30) = .ok c ∧ extractBits insn (.int 8) (.int 11) = .ok d ∧
      (insnOffsetB insn).toNat = 2 ^ 12 * a + 2 ^ 11 * b + 2 ^ 5 * c + 2 * d) ∧
    (∃ a b, extractBits insn (.int 25) (.int 31) = .ok a ∧ extractBits insn (.int 7) (.int 11) = .ok b ∧
      (insnImmS insn).toNat = 2 ^ 5 * a + b) ∧
    (∀ low high : BitVec 5, low.toNat ≤ high.toNat →
      extractBitsPorts insn low high = .ok (insn.toNat / 2 ^ low.toNat % 2 ^ (high.toNat - low.toNat + 1))) ∧
    (∀ low high : BitVec 5, high.toNat < low.toNat → extractBitsPorts insn low high = .error .lowGtHigh)

/-- If the bytes at pc, pc+1, pc+2, pc+3 (each address wrapped) are those of a word, least significant first, and the
word decodes to the instruction i, then step at that state is exec of i at that state; nothing is added around exec.
Rests on spec/40_step.md R121, R122, R124. -/
def Obligations.StepRunsTheDecodedInstruction : Prop :=
  ∀ (s : State) (insn : Word) (i : Instr),
    (∀ k, k < 4 → s.byteAt (s.pc + BitVec.ofNat 32 k) = insn.extractLsb' (8 * k) 8) →
    decode insn = .ok i → step s = exec i s

/-- The fetched word is mem[pc mod N] + 2^8*mem[(pc+1) mod N] + 2^16*mem[(pc+2) mod N] + 2^24*mem[(pc+3) mod N], at
every pc: aligned or not, below N or not, across the top of memory or not. Formalises R122. -/
def Obligations.FetchReadsFourBytesAtPcModuloN : Prop :=
  ∀ s : State, s.fetch.toNat =
    (s.mem.read (s.pc.toNat % s.memBytes)).toNat + 2 ^ 8 * (s.mem.read ((s.pc.toNat + 1) % s.memBytes)).toNat +
      2 ^ 16 * (s.mem.read ((s.pc.toNat + 2) % s.memBytes)).toNat +
      2 ^ 24 * (s.mem.read ((s.pc.toNat + 3) % s.memBytes)).toNat

/-- With UNMATCHED_POLICY = nop, if the fetched word satisfies no row of the opcode map, the step answers a next state
in which every register, every byte of memory and the configuration are as before and the pc is pc + 4. Formalises
R225. -/
def Obligations.UnmatchedWordOnlyAdvancesThePc : Prop :=
  ∀ s : State, s.params.unmatchedPolicy = .nop →
    (∀ row ∈ opcodeTable, s.fetch &&& row.mask ≠ row.pattern) →
    ∃ t, step s = .next t ∧ NoResult s t ∧ t.pc = s.pc + 4

/-- With UNMATCHED_POLICY = fault, if the fetched word satisfies no row of the opcode map, the step answers the fault
IllegalInstruction(pc, insn): there is no next state, so nothing is changed and the run is over. The policy and the
state after the fault are the spec's decision D8 (log 8). Rests on spec/49_unmatched.md R226. -/
def Obligations.UnmatchedWordFaultsUnderFaultPolicy : Prop :=
  ∀ s : State, s.params.unmatchedPolicy = .fault →
    (∀ row ∈ opcodeTable, s.fetch &&& row.mask ≠ row.pattern) →
    step s = .fault (.illegalInstruction s.pc s.fetch)

/-- With UNMATCHED_POLICY = nop, the step of a state whose fetched word is unmatched gives exactly the state that exec
of ADDI x0,x0,0 gives there. Rests on spec/49_unmatched.md R229. -/
def Obligations.UnmatchedWordActsAsNopInstruction : Prop :=
  ∀ (s : State) (why : Reject), s.params.unmatchedPolicy = .nop → decode s.fetch = .error why →
    step s = exec (.addi 0 0 0) s

/-- With UNMATCHED_POLICY = nop every state has a next state; with fault a state has one exactly when its fetched word
decodes, and no step is ever refused; and two states with the same registers as read, pc, memory and configuration
have next states that agree in registers as read, pc, memory and configuration. The state after a fault is the
spec's decision D8 (log 8); that registers are compared as read, the stored slot of x0 left out, follows the model's
representation (log 20). Rests on spec/40_step.md R127. -/
def Obligations.StepIsTotalAndDeterminedByTheVisibleState : Prop :=
  (∀ s : State, s.params.unmatchedPolicy = .nop → ∃ t, step s = .next t) ∧
  (∀ s : State, s.params.unmatchedPolicy = .fault → ((∃ t, step s = .next t) ↔ ∃ i, decode s.fetch = .ok i)) ∧
  (∀ (s : State) (r : Refusal), step s ≠ .refused r) ∧
  (∀ s₁ s₂ t₁ : State, s₁.pc = s₂.pc → s₁.mem = s₂.mem → s₁.params = s₂.params → (∀ r, s₁.x r = s₂.x r) →
    step s₁ = .next t₁ →
    ∃ t₂, step s₂ = .next t₂ ∧ t₁.pc = t₂.pc ∧ t₁.mem = t₂.mem ∧ t₁.params = t₂.params ∧ ∀ r, t₁.x r = t₂.x r)

/-- With UNMATCHED_POLICY = nop, from every state and for every number n, n steps of the machine end in a next state: no
fault and no refusal can be reached. Rests on spec/40_step.md R127, R128. -/
def Obligations.RunsNeverStopUnderTheDocumentedPolicy : Prop :=
  ∀ s : State, s.params.unmatchedPolicy = .nop → s.NeverStops

/-- If the fetched word is 0x0000006F, step answers the very same state. Rests on spec/40_step.md R128. -/
def Obligations.JumpToSelfLeavesTheWholeState : Prop :=
  ∀ s : State, s.fetch = 0x0000006F → step s = .next s

/-- After a step: for JAL the pc is pc + imm_j; for JALR it is x[rs1] + imm_i with bit 0 cleared; for each branch it is
pc + imm_b when its condition holds of x[rs1] and x[rs2] and pc + 4 when it does not; for every other instruction,
and for an unmatched word under nop, it is pc + 4. Formalises R29. -/
def Obligations.PcGoesToNextWordOrTheJumpTarget : Prop :=
  ∀ s t : State, step s = .next t →
    match decode s.fetch with
    | .ok (.jal _ off) => t.pc = s.pc + off.signExtend 32
    | .ok (.jalr _ rs1 imm) => t.pc = (s.x rs1 + imm.signExtend 32) &&& ~~~1#32
    | .ok (.beq rs1 rs2 off) => t.pc = s.pc + if s.x rs1 = s.x rs2 then off.signExtend 32 else 4
    | .ok (.bne rs1 rs2 off) => t.pc = s.pc + if s.x rs1 ≠ s.x rs2 then off.signExtend 32 else 4
    | .ok (.blt rs1 rs2 off) => t.pc = s.pc + if (s.x rs1).toInt < (s.x rs2).toInt then off.signExtend 32 else 4
    | .ok (.bge rs1 rs2 off) => t.pc = s.pc + if (s.x rs1).toInt ≥ (s.x rs2).toInt then off.signExtend 32 else 4
    | .ok (.bltu rs1 rs2 off) => t.pc = s.pc + if (s.x rs1).toNat < (s.x rs2).toNat then off.signExtend 32 else 4
    | .ok (.bgeu rs1 rs2 off) => t.pc = s.pc + if (s.x rs1).toNat ≥ (s.x rs2).toNat then off.signExtend 32 else 4
    | _ => t.pc = s.pc + 4

/-- From every state whose fetched word is not JAL, not JALR and not a branch whose condition holds (an unmatched word
only under nop), step answers a next state, and its pc is congruent to the old pc + 4 modulo N, and as a number is
the old pc + 4 unless that reaches 2^32, where it is 2^32 less: the register is not reduced modulo N (the spec's
decision D5, log 15; N divides 2^32 by its decision D3, log 5). Rests on spec/10_state.md R29, R30; spec/40_step.md
R123; spec/90_conflicts.md C3. -/
def Obligations.SequentialPcAdvancesModuloMemorySize : Prop :=
  ∀ s : State, fallsThrough s = true →
    ∃ t, step s = .next t ∧ t.pc.toNat % s.memBytes = (s.pc.toNat + 4) % s.memBytes ∧
      (s.pc.toNat + 4 < 2 ^ 32 → t.pc.toNat = s.pc.toNat + 4) ∧
      (2 ^ 32 ≤ s.pc.toNat + 4 → t.pc.toNat + 2 ^ 32 = s.pc.toNat + 4)

/-- From every state in which memory is in its canonical form (addresses strictly rising, no byte listed that an
unlisted address reads as), lists addresses below N only and the slot of x0 holds 0, every next state is such a
state. The canonical form is the model's own representation. Rests on spec/10_state.md R22; spec/20_memory.md R50. -/
def Obligations.StepKeepsTheMachineInvariant : Prop :=
  ∀ s t : State, s.Inv → step s = .next t → t.Inv

/-- From every state with an even pc every next state has an even pc: pc + 4, the offsets of JAL and of the branches,
and the target of JALR with bit 0 cleared are all even. Rests on spec/10_state.md R31. -/
def Obligations.StepKeepsThePcEven : Prop :=
  ∀ s t : State, s.PcEven → step s = .next t → t.PcEven

/-- State.reset has pc 0, x0..x31 = 0, every byte of memory 0, nothing listed in memory, N = 65536, AUIPC_SHIFT = 0 and
UNMATCHED_POLICY = nop. The values of the pc, x1..x31 and memory are the spec's decisions D13, D14, D15, not the
document's (log 2, 3, 4). Rests on spec/10_state.md section 7; spec/00_scope.md section 3. -/
def Obligations.ResetStateIsTheDefaultConstruction : Prop :=
  State.reset.pc = 0 ∧ (∀ r : Reg, State.reset.x r = 0) ∧ (∀ a : Word, State.reset.byteAt a = 0) ∧
  State.reset.mem = [] ∧ State.reset.memBytes = 65536 ∧ State.reset.params.auipcShift.amount = 0 ∧
  State.reset.params.unmatchedPolicy = .nop

/-- State.reset satisfies the invariant that every step keeps, and its pc is even (the default RESET_PC is the spec's
decision D13, log 2). Rests on spec/10_state.md section 7. -/
def Obligations.ResetMeetsTheInvariants : Prop :=
  State.reset.Inv ∧ State.reset.PcEven

/-- For every configuration: after construction and loading, x0 is 0 and every other register is its entry of
RESET_REGS, the pc is RESET_PC, the parameters are the configured ones, a byte the loader wrote holds the value of
the last write of the image to its cell (the first one found in the reversed image whose address is congruent modulo
N) and every other byte is 0, and the machine invariant holds. Values not loaded are the spec's decisions D13 to D15
(log 2, 3, 4). Rests on spec/10_state.md R40; spec/70_reset_and_hazards.md R260 to R262. -/
def Obligations.BootHoldsTheConfiguredValues : Prop :=
  ∀ c : Config,
    (State.boot c).x 0 = 0 ∧ (∀ r : Fin 32, r ≠ 0 → (State.boot c).x (BitVec.ofFin r) = c.resetRegs.get r) ∧
    (State.boot c).pc = c.resetPc ∧ (State.boot c).params = c.params ∧
    (∀ a : Word, (State.boot c).byteAt a =
      ((c.initMem.reverse.find? fun e => e.1.toNat % c.params.memSize.bytes = a.toNat % c.params.memSize.bytes).map
        Prod.snd).getD 0) ∧
    (State.boot c).Inv

/-- Whenever exec answers a next state, a register that reads differently afterwards is the destination of the
instruction as R25 lists it; the destination is never x0; and the configuration is unchanged. Rests on
spec/10_state.md R25. -/
def Obligations.InstructionsWriteTheirDestinationAlone : Prop :=
  ∀ (i : Instr) (s t : State), exec i s = .next t →
    (∀ r : Reg, t.x r ≠ s.x r → destination i = some r ∧ r ≠ 0) ∧ t.params = s.params

/-- Of two states with the same pc, memory and configuration that agree on the source registers of an instruction (as
R25 lists them), exec of it gives next states with the same pc and memory, the same value in the destination, and
every other register as it was in each. Rests on spec/10_state.md R25; spec/40_step.md R125. -/
def Obligations.InstructionsReadTheirSourcesAlone : Prop :=
  ∀ (i : Instr) (s₁ s₂ : State), s₁.pc = s₂.pc → s₁.mem = s₂.mem → s₁.params = s₂.params →
    (∀ r ∈ sources i, s₁.x r = s₂.x r) →
    ∃ t₁ t₂, exec i s₁ = .next t₁ ∧ exec i s₂ = .next t₂ ∧ t₁.pc = t₂.pc ∧ t₁.mem = t₂.mem ∧
      (∀ r, destination i = some r → t₁.x r = t₂.x r) ∧
      (∀ r, destination i ≠ some r → t₁.x r = s₁.x r ∧ t₂.x r = s₂.x r)

/-- Whenever step answers a next state: if the fetched word decodes to a store, every byte outside the 1, 2 or 4 bytes
at its effective address reads as before; otherwise every byte of memory reads as before. The configuration never
changes. Rests on spec/20_memory.md R62. -/
def Obligations.OnlyStoresChangeMemoryAndOnlyTheirBytes : Prop :=
  ∀ s t : State, step s = .next t → t.params = s.params ∧
    match decode s.fetch with
    | .ok i =>
      match storeTarget s i with
      | some (a, w) => ∀ b : Word, ¬ s.touches a w b → t.byteAt b = s.byteAt b
      | none => ∀ b : Word, t.byteAt b = s.byteAt b
    | .error _ => ∀ b : Word, t.byteAt b = s.byteAt b

/-- For every integer v, after x[i] <- v register j reads 0 if j is 0, v mod 2^32 if j is i, and its old value
otherwise; nothing else of the state changes; and x0 reads 0 after every instruction, those that name x0 as
destination included, and through getRegisterValue. Rests on spec/10_state.md R22, R23, R27. -/
def Obligations.GuardedWriteDiscardsWritesToX0 : Prop :=
  (∀ (s : State) (i j : Reg) (v : Int),
      (((s.setX i (BitVec.ofInt 32 v)).x j).toNat : Int) =
        if j = 0 then 0 else if j = i then v % 2 ^ 32 else ((s.x j).toNat : Int)) ∧
  (∀ (s : State) (i : Reg) (v : Word), (s.setX i v).pc = s.pc ∧ (s.setX i v).mem = s.mem ∧
      (s.setX i v).params = s.params ∧ s.setX 0 v = s) ∧
  (∀ (i : Instr) (s t : State), exec i s = .next t → t.x 0 = 0 ∧ t.getRegisterValue 0 = .ok 0)

/-- getRegisterValue of an index 0..31 is the register read as a signed 32-bit value, and of any other integer it is
refused (the spec's decision D17, log 16); getProgramCounter is the stored word, not reduced modulo N. Rests on
spec/10_state.md R26, R32. -/
def Obligations.ObservationPortsReadTheState : Prop :=
  ∀ s : State,
    (∀ r : Reg, s.getRegisterValue r.toNat =
      .ok (if (s.x r).toNat < 2 ^ 31 then ((s.x r).toNat : Int) else (s.x r).toNat - 2 ^ 32)) ∧
    (∀ k : Int, (k < 0 ∨ 31 < k) → s.getRegisterValue k = .error (.registerIndexOutside k)) ∧
    s.getProgramCounter = s.pc.toNat

/-- For every state, address a and integer value v: after write(a, v) the byte read at an address b is v mod 256 if a
and b are congruent modulo N and its old value otherwise; no register, pc or parameter changes; and addresses
congruent modulo N read the same byte. Formalises R52. -/
def Obligations.AliasedAddressesNameOneByte : Prop :=
  (∀ (s : State) (a b : Word) (v : Int),
      (((s.hostWrite a v).hostRead b).toNat : Int) =
        if a.toNat % s.memBytes = b.toNat % s.memBytes then v % 256 else ((s.hostRead b).toNat : Int)) ∧
  (∀ (s : State) (a : Word) (v : Int), (∀ r, (s.hostWrite a v).x r = s.x r) ∧ (s.hostWrite a v).pc = s.pc ∧
      (s.hostWrite a v).params = s.params) ∧
  (∀ (s : State) (a b : Word), a.toNat % s.memBytes = b.toNat % s.memBytes → s.hostRead a = s.hostRead b)

/-- After a store of a word at address A, a read of width n at A + d with d + n <= 4 gives bits 8d+8n-1 down to 8d of
the stored word, at every address, aligned or not, across the top of memory or not. Rests on spec/20_memory.md R59. -/
def Obligations.NarrowReadsSeeTheBytesOfAStoredWord : Prop :=
  ∀ (s t : State) (rs1 rs2 : Reg) (imm : BitVec 12), exec (.sw rs1 rs2 imm) s = .next t →
    ∀ (w : Width) (d : Nat), d + w.bytes ≤ 4 →
      (t.memRead (s.effAddr rs1 imm + BitVec.ofNat 32 d) w).toNat =
        (s.x rs2).toNat / 2 ^ (8 * d) % 2 ^ (8 * w.bytes)

/-- At every address and for every register operand: SB then LB gives the low byte of x[rs2] sign-extended and LBU gives
it zero-extended; SH then LH and LHU likewise for the low halfword; SW then LW gives x[rs2]. Where rd is x0 nothing
is written and it reads 0. Rests on spec/47_stores.md R205. -/
def Obligations.StoreThenLoadReturnsTheStoredValue : Prop :=
  (∀ (s : State) (rs1 rs2 rd : Reg) (imm : BitVec 12), ∃ t u, exec (.sb rs1 rs2 imm) s = .next t ∧
      exec (.lb rd rs1 imm) t = .next u ∧ u.x rd = if rd = 0 then 0 else ((s.x rs2).setWidth 8).signExtend 32) ∧
  (∀ (s : State) (rs1 rs2 rd : Reg) (imm : BitVec 12), ∃ t u, exec (.sb rs1 rs2 imm) s = .next t ∧
      exec (.lbu rd rs1 imm) t = .next u ∧ u.x rd = if rd = 0 then 0 else ((s.x rs2).setWidth 8).setWidth 32) ∧
  (∀ (s : State) (rs1 rs2 rd : Reg) (imm : BitVec 12), ∃ t u, exec (.sh rs1 rs2 imm) s = .next t ∧
      exec (.lh rd rs1 imm) t = .next u ∧ u.x rd = if rd = 0 then 0 else ((s.x rs2).setWidth 16).signExtend 32) ∧
  (∀ (s : State) (rs1 rs2 rd : Reg) (imm : BitVec 12), ∃ t u, exec (.sh rs1 rs2 imm) s = .next t ∧
      exec (.lhu rd rs1 imm) t = .next u ∧ u.x rd = if rd = 0 then 0 else ((s.x rs2).setWidth 16).setWidth 32) ∧
  (∀ (s : State) (rs1 rs2 rd : Reg) (imm : BitVec 12), ∃ t u, exec (.sw rs1 rs2 imm) s = .next t ∧
      exec (.lw rd rs1 imm) t = .next u ∧ u.x rd = if rd = 0 then 0 else s.x rs2)

/-- If a step executes SW and its effective address names the same byte as pc + 4, then the next fetch gives the stored
word; if that word decodes to i the next step runs i at the state after the store, and decoding looks at that word
alone: nothing was fetched or decoded earlier. Rests on spec/20_memory.md R71. -/
def Obligations.StoreIsSeenByTheNextFetch : Prop :=
  ∀ (s t : State) (rs1 rs2 : Reg) (imm : BitVec 12), exec (.sw rs1 rs2 imm) s = .next t →
    (s.effAddr rs1 imm).toNat % s.memBytes = (s.pc.toNat + 4) % s.memBytes →
    t.fetch = s.x rs2 ∧ ∀ i, decode (s.x rs2) = .ok i → step t = exec i t

/-- After the loader writes the bytes w[7:0], w[15:8], w[23:16], w[31:24] at A, A+1, A+2, A+3 by write(address, byte),
with A naming the byte the pc names, the fetched word is w; the loader's word write is those four writes; and
withFetchWord of a 32-bit word is that load at the pc, so that the word is fetched next. withFetchWord is the
model's device that stands for the loader (log 17). Rests on spec/70_reset_and_hazards.md R262. -/
def Obligations.LoadedWordIsFetchedAtItsAddress : Prop :=
  ∀ (s : State) (a w : Word),
    s.loadWord a w =
      (((s.hostWrite a (w.extractLsb 7 0).toNat).hostWrite (a + 1) (w.extractLsb 15 8).toNat).hostWrite (a + 2)
        (w.extractLsb 23 16).toNat).hostWrite (a + 3) (w.extractLsb 31 24).toNat ∧
    (a.toNat % s.memBytes = s.pc.toNat % s.memBytes → (s.loadWord a w).fetch = w) ∧
    s.withFetchWord 32 w.toNat = s.loadWord s.pc w ∧ (s.withFetchWord 32 w.toNat).fetch = w

/-- Every word with opcode 0x37 is LUI with rd = insn[11:7], imm20 = insn[31:12]. LUI completes in every state, writes
imm20 * 4096 to rd (nothing if rd is x0), goes on at pc + 4, and leaves every other register, every byte of memory
and the configuration. That LUI always shifts is the spec's decision D6 (log 7). Rests on spec/41_upper_immediate.md
R141. -/
def Obligations.LuiLoadsTheUpperImmediate : Prop :=
  Selects 0x0000007F 0x00000037 (fun w => .lui (rdOf w) (w.extractLsb 31 12)) ∧
  ∀ (rd : Reg) (imm20 : BitVec 20) (s : State),
    ∃ t, exec (.lui rd imm20) s = .next t ∧ RegisterResult s t rd (BitVec.ofNat 32 (imm20.toNat * 4096)) ∧ t.pc = s.pc + 4

/-- Every word with opcode 0x17 is AUIPC with rd = insn[11:7], imm20 = insn[31:12]. AUIPC completes in every state and
writes pc + imm20 where AUIPC_SHIFT is 0 and pc + imm20 * 4096 where it is 12, modulo 2^32, pc its own address, the
field zero-extended; the rest is as before and the pc goes to pc + 4. The shift and the zero extension are the
spec's decision D7 (log 6). Rests on spec/41_upper_immediate.md R142. -/
def Obligations.AuipcAddsTheFieldShiftedByTheParameter : Prop :=
  Selects 0x0000007F 0x00000017 (fun w => .auipc (rdOf w) (w.extractLsb 31 12)) ∧
  (∀ (rd : Reg) (imm20 : BitVec 20) (s : State), s.params.auipcShift = .unshifted →
    ∃ t, exec (.auipc rd imm20) s = .next t ∧ RegisterResult s t rd (BitVec.ofNat 32 (s.pc.toNat + imm20.toNat)) ∧ t.pc = s.pc + 4) ∧
  (∀ (rd : Reg) (imm20 : BitVec 20) (s : State), s.params.auipcShift = .rv32i →
    ∃ t, exec (.auipc rd imm20) s = .next t ∧ RegisterResult s t rd (BitVec.ofNat 32 (s.pc.toNat + imm20.toNat * 4096)) ∧ t.pc = s.pc + 4)

/-- For rd other than x0: LUI rd,hi followed by ADDI rd,rd,lo leaves (hi << 12) + lo in rd; with AUIPC_SHIFT = 0, AUIPC
rd,hi followed by ADDI rd,rd,lo leaves pc + hi + lo, pc the address of the AUIPC, lo sign-extended. That LUI always
shifts (D6: log 7) and AUIPC's shift and zero extension (D7: log 6) are the spec's decisions, and what ADDI computes
is its general knowledge (G2: log 12). Where rd is x0 each of the three is covered by its own statement. Rests on
spec/41_upper_immediate.md R143. -/
def Obligations.UpperImmediatePairsBuildConstants : Prop :=
  ∀ (s : State) (rd : Reg) (hi : BitVec 20) (lo : BitVec 12), rd ≠ 0 →
    (∃ t u, exec (.lui rd hi) s = .next t ∧ exec (.addi rd rd lo) t = .next u ∧
      u.x rd = BitVec.ofInt 32 (hi.toNat * 4096 + lo.toInt)) ∧
    (s.params.auipcShift = .unshifted →
      ∃ t u, exec (.auipc rd hi) s = .next t ∧ exec (.addi rd rd lo) t = .next u ∧
        u.x rd = BitVec.ofInt 32 (s.pc.toNat + hi.toNat + lo.toInt))

/-- Every word with opcode 0x6F is JAL with rd = insn[11:7] and the offset of the bits insn[31], insn[19:12], insn[20],
insn[30:21], 0. JAL completes in every state, writes pc + 4 to rd (nothing if rd is x0), sets the pc to pc plus the
signed 21-bit offset modulo 2^32, and leaves every other register, memory and the configuration. Formalises R150. -/
def Obligations.JalLinksAndJumpsByTheOffset : Prop :=
  Selects 0x0000007F 0x0000006F (fun w => .jal (rdOf w) (w.extractLsb 31 31 ++ w.extractLsb 19 12 ++ w.extractLsb 20 20 ++ w.extractLsb 30 21 ++ 0#1)) ∧
  ∀ (rd : Reg) (offset : BitVec 21) (s : State),
    ∃ t, exec (.jal rd offset) s = .next t ∧ RegisterResult s t rd (s.pc + 4) ∧
      t.pc = BitVec.ofInt 32 (s.pc.toNat + offset.toInt)

/-- Every word with opcode 0x67, whatever its funct3 (the spec's decision D10, log 9), is JALR with rd, rs1 and imm_i of
the I format. JALR completes in every state, writes pc + 4 to rd (nothing if rd is x0), sets the pc to the sum of
the old x[rs1] and the signed immediate modulo 2^32 with bit 0 cleared after the addition, rd = rs1 included, and
leaves every other register, memory and the configuration. Rests on spec/46_jalr.md R195. -/
def Obligations.JalrLinksAndJumpsToTheEvenTarget : Prop :=
  Selects 0x0000007F 0x00000067 (fun w => .jalr (rdOf w) (rs1Of w) (w.extractLsb 31 20)) ∧
  ∀ (rd rs1 : Reg) (imm : BitVec 12) (s : State),
    ∃ t, exec (.jalr rd rs1 imm) s = .next t ∧ RegisterResult s t rd (s.pc + 4) ∧
      t.pc = BitVec.ofNat 32 ((BitVec.ofInt 32 ((s.x rs1).toInt + imm.toInt)).toNat / 2 * 2)

/-- From an even pc and for any rd but x0, JAL rd,offset followed by JALR x0,0(rd) ends with the pc at the JAL's pc + 4,
rd holding that address and every other register and memory byte as before. Rests on spec/42_jal.md R151. -/
def Obligations.CallAndReturnComeBackAfterTheCall : Prop :=
  ∀ (s : State) (rd : Reg) (offset : BitVec 21), s.PcEven → rd ≠ 0 →
    ∃ t u, exec (.jal rd offset) s = .next t ∧ exec (.jalr 0 rd 0) t = .next u ∧ u.pc = s.pc + 4 ∧
      RegisterResult s u rd (s.pc + 4)

/-- Every word with opcode 0x63 and funct3 0 (1) is BEQ (BNE) with rs1, rs2 and the offset of the B format. Each
completes in every state, sets the pc to pc plus the signed 13-bit offset modulo 2^32 when taken and to pc + 4 when
not, and changes no register, no memory byte and no parameter. Formalises R161, R162. -/
def Obligations.EqualityBranchesCompareTheTwoRegisters : Prop :=
  Selects 0x0000707F 0x00000063 (fun w => .beq (rs1Of w) (rs2Of w) (offsetBOf w)) ∧
  Selects 0x0000707F 0x00001063 (fun w => .bne (rs1Of w) (rs2Of w) (offsetBOf w)) ∧
  (∀ (rs1 rs2 : Reg) (offset : BitVec 13) (s : State),
    ∃ t, exec (.beq rs1 rs2 offset) s = .next t ∧ NoResult s t ∧
      t.pc = if s.x rs1 = s.x rs2 then BitVec.ofInt 32 (s.pc.toNat + offset.toInt) else s.pc + 4) ∧
  (∀ (rs1 rs2 : Reg) (offset : BitVec 13) (s : State),
    ∃ t, exec (.bne rs1 rs2 offset) s = .next t ∧ NoResult s t ∧
      t.pc = if s.x rs1 ≠ s.x rs2 then BitVec.ofInt 32 (s.pc.toNat + offset.toInt) else s.pc + 4)

/-- Every word with opcode 0x63 and funct3 4, 5, 6, 7 is BLT, BGE, BLTU, BGEU with rs1, rs2 and the offset of the B
format. Each completes in every state, is taken exactly when s(x[rs1]) < s(x[rs2]), s(x[rs1]) >= s(x[rs2]),
u(x[rs1]) < u(x[rs2]), u(x[rs1]) >= u(x[rs2]), sets the pc to pc plus the signed 13-bit offset modulo 2^32 when
taken and to pc + 4 when not, and changes no register, no memory byte and no parameter. Formalises R163, R164, R165,
R166. -/
def Obligations.OrderBranchesCompareSignedOrUnsigned : Prop :=
  Selects 0x0000707F 0x00004063 (fun w => .blt (rs1Of w) (rs2Of w) (offsetBOf w)) ∧
  Selects 0x0000707F 0x00005063 (fun w => .bge (rs1Of w) (rs2Of w) (offsetBOf w)) ∧
  Selects 0x0000707F 0x00006063 (fun w => .bltu (rs1Of w) (rs2Of w) (offsetBOf w)) ∧
  Selects 0x0000707F 0x00007063 (fun w => .bgeu (rs1Of w) (rs2Of w) (offsetBOf w)) ∧
  (∀ (rs1 rs2 : Reg) (offset : BitVec 13) (s : State),
    ∃ t, exec (.blt rs1 rs2 offset) s = .next t ∧ NoResult s t ∧
      t.pc = if (s.x rs1).toInt < (s.x rs2).toInt then BitVec.ofInt 32 (s.pc.toNat + offset.toInt) else s.pc + 4) ∧
  (∀ (rs1 rs2 : Reg) (offset : BitVec 13) (s : State),
    ∃ t, exec (.bge rs1 rs2 offset) s = .next t ∧ NoResult s t ∧
      t.pc = if (s.x rs1).toInt ≥ (s.x rs2).toInt then BitVec.ofInt 32 (s.pc.toNat + offset.toInt) else s.pc + 4) ∧
  (∀ (rs1 rs2 : Reg) (offset : BitVec 13) (s : State),
    ∃ t, exec (.bltu rs1 rs2 offset) s = .next t ∧ NoResult s t ∧
      t.pc = if (s.x rs1).toNat < (s.x rs2).toNat then BitVec.ofInt 32 (s.pc.toNat + offset.toInt) else s.pc + 4) ∧
  (∀ (rs1 rs2 : Reg) (offset : BitVec 13) (s : State),
    ∃ t, exec (.bgeu rs1 rs2 offset) s = .next t ∧ NoResult s t ∧
      t.pc = if (s.x rs1).toNat ≥ (s.x rs2).toNat then BitVec.ofInt 32 (s.pc.toNat + offset.toInt) else s.pc + 4)

/-- Every word with opcode 0x03 and funct3 0 (1) is LB (LH) with rd, rs1 and imm_i of the I format. Each completes in
every state, at every address (a = x[rs1] + imm_i modulo 2^32, each byte wrapped modulo N), writes the signed value
of the byte at a (of the halfword whose low byte is at a and high byte at a+1) to rd (nothing if rd is x0), goes on
at pc + 4, and leaves every other register, memory and the configuration. Formalises R171, R172. -/
def Obligations.SignedLoadsExtendTheSign : Prop :=
  Selects 0x0000707F 0x00000003 (fun w => .lb (rdOf w) (rs1Of w) (w.extractLsb 31 20)) ∧
  Selects 0x0000707F 0x00001003 (fun w => .lh (rdOf w) (rs1Of w) (w.extractLsb 31 20)) ∧
  (∀ (rd rs1 : Reg) (imm : BitVec 12) (s : State) (a : Word), a = BitVec.ofInt 32 ((s.x rs1).toInt + imm.toInt) →
    ∃ t, exec (.lb rd rs1 imm) s = .next t ∧ RegisterResult s t rd (BitVec.ofInt 32 (s.byteAt a).toInt) ∧ t.pc = s.pc + 4) ∧
  (∀ (rd rs1 : Reg) (imm : BitVec 12) (s : State) (a : Word), a = BitVec.ofInt 32 ((s.x rs1).toInt + imm.toInt) →
    ∃ t, exec (.lh rd rs1 imm) s = .next t ∧ RegisterResult s t rd (BitVec.ofInt 32 (s.byteAt (a + 1) ++ s.byteAt a).toInt) ∧ t.pc = s.pc + 4)

/-- Every word with opcode 0x03 and funct3 2, 4, 5 is LW, LBU, LHU with rd, rs1 and imm_i of the I format. Each
completes in every state, at every address (a = x[rs1] + imm_i modulo 2^32, each byte wrapped modulo N), writes the
sum of the bytes at a, a+1, ... times 1, 2^8, 2^16, 2^24 to rd (nothing if rd is x0), goes on at pc + 4, and leaves
every other register, memory and the configuration. Formalises R173, R174, R175. -/
def Obligations.WordAndUnsignedLoadsReadLittleEndian : Prop :=
  Selects 0x0000707F 0x00002003 (fun w => .lw (rdOf w) (rs1Of w) (w.extractLsb 31 20)) ∧
  Selects 0x0000707F 0x00004003 (fun w => .lbu (rdOf w) (rs1Of w) (w.extractLsb 31 20)) ∧
  Selects 0x0000707F 0x00005003 (fun w => .lhu (rdOf w) (rs1Of w) (w.extractLsb 31 20)) ∧
  (∀ (rd rs1 : Reg) (imm : BitVec 12) (s : State) (a : Word), a = BitVec.ofInt 32 ((s.x rs1).toInt + imm.toInt) →
    ∃ t, exec (.lw rd rs1 imm) s = .next t ∧ RegisterResult s t rd (BitVec.ofNat 32 ((s.byteAt a).toNat + 2 ^ 8 * (s.byteAt (a + 1)).toNat + 2 ^ 16 * (s.byteAt (a + 2)).toNat +
      2 ^ 24 * (s.byteAt (a + 3)).toNat)) ∧ t.pc = s.pc + 4) ∧
  (∀ (rd rs1 : Reg) (imm : BitVec 12) (s : State) (a : Word), a = BitVec.ofInt 32 ((s.x rs1).toInt + imm.toInt) →
    ∃ t, exec (.lbu rd rs1 imm) s = .next t ∧ RegisterResult s t rd (BitVec.ofNat 32 (s.byteAt a).toNat) ∧ t.pc = s.pc + 4) ∧
  (∀ (rd rs1 : Reg) (imm : BitVec 12) (s : State) (a : Word), a = BitVec.ofInt 32 ((s.x rs1).toInt + imm.toInt) →
    ∃ t, exec (.lhu rd rs1 imm) s = .next t ∧ RegisterResult s t rd (BitVec.ofNat 32 ((s.byteAt a).toNat + 2 ^ 8 * (s.byteAt (a + 1)).toNat)) ∧ t.pc = s.pc + 4)

/-- Every word with opcode 0x23 and funct3 0, 1, 2 is SB, SH, SW with rs1, rs2 and imm_s of the S format. The effective
address is x[rs1] + imm_s modulo 2^32. Each completes in every state, at every address: byte i of the access holds
bits 8i+7..8i of x[rs2], every byte outside the access (each address wrapped modulo N) reads as before, no register
and no parameter changes, and the pc goes to pc + 4. Formalises R201, R202, R203. -/
def Obligations.StoresWriteTheLowBytesAtTheirAddress : Prop :=
  Selects 0x0000707F 0x00000023 (fun w => .sb (rs1Of w) (rs2Of w) (w.extractLsb 31 25 ++ w.extractLsb 11 7)) ∧
  Selects 0x0000707F 0x00001023 (fun w => .sh (rs1Of w) (rs2Of w) (w.extractLsb 31 25 ++ w.extractLsb 11 7)) ∧
  Selects 0x0000707F 0x00002023 (fun w => .sw (rs1Of w) (rs2Of w) (w.extractLsb 31 25 ++ w.extractLsb 11 7)) ∧
  (∀ (rs1 : Reg) (imm : BitVec 12) (s : State), s.effAddr rs1 imm = BitVec.ofInt 32 ((s.x rs1).toInt + imm.toInt)) ∧
  (∀ (rs1 rs2 : Reg) (imm : BitVec 12) (s : State),
    ∃ t, exec (.sb rs1 rs2 imm) s = .next t ∧ StoreResult s t (s.effAddr rs1 imm) .byte (s.x rs2) ∧ t.pc = s.pc + 4) ∧
  (∀ (rs1 rs2 : Reg) (imm : BitVec 12) (s : State),
    ∃ t, exec (.sh rs1 rs2 imm) s = .next t ∧ StoreResult s t (s.effAddr rs1 imm) .half (s.x rs2) ∧ t.pc = s.pc + 4) ∧
  (∀ (rs1 rs2 : Reg) (imm : BitVec 12) (s : State),
    ∃ t, exec (.sw rs1 rs2 imm) s = .next t ∧ StoreResult s t (s.effAddr rs1 imm) .word (s.x rs2) ∧ t.pc = s.pc + 4)

/-- Every word with opcode 0x13 and funct3 0 is ADDI with rd, rs1 and imm_i of the I format. It completes in every
state, writes the sum of x[rs1] and the signed immediate modulo 2^32 to rd (nothing if rd is x0), goes on at pc + 4,
and leaves every other register, memory and the configuration. The standard integer operation is the RV32I one,
which the spec gives from general knowledge (G2: log 12). Rests on spec/45_alu_immediate.md R181. -/
def Obligations.AddiAddsTheSignedImmediate : Prop :=
  Selects 0x0000707F 0x00000013 (fun w => .addi (rdOf w) (rs1Of w) (w.extractLsb 31 20)) ∧
  (∀ (rd rs1 : Reg) (imm : BitVec 12) (s : State),
    ∃ t, exec (.addi rd rs1 imm) s = .next t ∧ RegisterResult s t rd (BitVec.ofInt 32 ((s.x rs1).toInt + imm.toInt)) ∧ t.pc = s.pc + 4)

/-- Every word with opcode 0x13 and funct3 2 (3) is SLTI (SLTIU) with rd, rs1 and imm_i of the I format. Each completes
in every state and writes 1 to rd if s(x[rs1]) < s(imm_i) (if u(x[rs1]) < u(imm_i), the immediate first sign-
extended) and 0 otherwise, nothing if rd is x0; the pc goes to pc + 4 and the rest is as before. The standard
integer operation is the RV32I one, which the spec gives from general knowledge (G2: log 12). Rests on
spec/45_alu_immediate.md R182, R183. -/
def Obligations.CompareImmediatesWriteZeroOrOne : Prop :=
  Selects 0x0000707F 0x00002013 (fun w => .slti (rdOf w) (rs1Of w) (w.extractLsb 31 20)) ∧
  Selects 0x0000707F 0x00003013 (fun w => .sltiu (rdOf w) (rs1Of w) (w.extractLsb 31 20)) ∧
  (∀ (rd rs1 : Reg) (imm : BitVec 12) (s : State),
    ∃ t, exec (.slti rd rs1 imm) s = .next t ∧ RegisterResult s t rd (if (s.x rs1).toInt < imm.toInt then 1 else 0) ∧ t.pc = s.pc + 4) ∧
  (∀ (rd rs1 : Reg) (imm : BitVec 12) (s : State),
    ∃ t, exec (.sltiu rd rs1 imm) s = .next t ∧ RegisterResult s t rd (if (s.x rs1).toNat < (imm.signExtend 32).toNat then 1 else 0) ∧ t.pc = s.pc + 4)

/-- Every word with opcode 0x13 and funct3 4, 6, 7 is XORI, ORI, ANDI with rd, rs1 and imm_i of the I format. Each
completes in every state and writes the bitwise exclusive-or, or, and of x[rs1] and the immediate sign-extended to
32 bits to rd (nothing if rd is x0); the pc goes to pc + 4 and the rest is as before. The standard integer operation
is the RV32I one, which the spec gives from general knowledge (G2: log 12). Rests on spec/45_alu_immediate.md R184,
R185, R186. -/
def Obligations.LogicImmediatesCombineWithTheSignExtendedImmediate : Prop :=
  Selects 0x0000707F 0x00004013 (fun w => .xori (rdOf w) (rs1Of w) (w.extractLsb 31 20)) ∧
  Selects 0x0000707F 0x00006013 (fun w => .ori (rdOf w) (rs1Of w) (w.extractLsb 31 20)) ∧
  Selects 0x0000707F 0x00007013 (fun w => .andi (rdOf w) (rs1Of w) (w.extractLsb 31 20)) ∧
  (∀ (rd rs1 : Reg) (imm : BitVec 12) (s : State),
    ∃ t, exec (.xori rd rs1 imm) s = .next t ∧ RegisterResult s t rd (s.x rs1 ^^^ imm.signExtend 32) ∧ t.pc = s.pc + 4) ∧
  (∀ (rd rs1 : Reg) (imm : BitVec 12) (s : State),
    ∃ t, exec (.ori rd rs1 imm) s = .next t ∧ RegisterResult s t rd (s.x rs1 ||| imm.signExtend 32) ∧ t.pc = s.pc + 4) ∧
  (∀ (rd rs1 : Reg) (imm : BitVec 12) (s : State),
    ∃ t, exec (.andi rd rs1 imm) s = .next t ∧ RegisterResult s t rd (s.x rs1 &&& imm.signExtend 32) ∧ t.pc = s.pc + 4)

/-- Every word with opcode 0x13 and funct3 1 is SLLI, and with funct3 5 it is SRLI if insn[30] is 0 and SRAI if it is 1,
whatever the other bits of insn[31:25] (the spec's decision D11, log 10), with shamt = insn[24:20]. Each completes
in every state and writes x[rs1] * 2^shamt modulo 2^32, u(x[rs1]) / 2^shamt, s(x[rs1]) / 2^shamt rounded down to rd
(nothing if rd is x0); the pc goes to pc + 4 and the rest is as before. What the three compute is the spec's general
knowledge (G2: log 12). Rests on spec/45_alu_immediate.md R187, R188, R189. -/
def Obligations.ShiftImmediatesShiftByTheFiveBitAmount : Prop :=
  Selects 0x0000707F 0x00001013 (fun w => .slli (rdOf w) (rs1Of w) (w.extractLsb 24 20)) ∧
  Selects 0x4000707F 0x00005013 (fun w => .srli (rdOf w) (rs1Of w) (w.extractLsb 24 20)) ∧
  Selects 0x4000707F 0x40005013 (fun w => .srai (rdOf w) (rs1Of w) (w.extractLsb 24 20)) ∧
  (∀ (rd rs1 : Reg) (shamt : BitVec 5) (s : State),
    ∃ t, exec (.slli rd rs1 shamt) s = .next t ∧ RegisterResult s t rd (BitVec.ofNat 32 ((s.x rs1).toNat * 2 ^ shamt.toNat)) ∧ t.pc = s.pc + 4) ∧
  (∀ (rd rs1 : Reg) (shamt : BitVec 5) (s : State),
    ∃ t, exec (.srli rd rs1 shamt) s = .next t ∧ RegisterResult s t rd (BitVec.ofNat 32 ((s.x rs1).toNat / 2 ^ shamt.toNat)) ∧ t.pc = s.pc + 4) ∧
  (∀ (rd rs1 : Reg) (shamt : BitVec 5) (s : State),
    ∃ t, exec (.srai rd rs1 shamt) s = .next t ∧ RegisterResult s t rd (BitVec.ofInt 32 ((s.x rs1).toInt / 2 ^ shamt.toNat)) ∧ t.pc = s.pc + 4)

/-- Every word with opcode 0x33, funct3 0 and funct7 0x00 (0x20) is ADD (SUB). Each completes in every state, writes the
sum (the difference, rs1 the left operand) modulo 2^32 to rd (nothing if rd is x0), both sources read before the
write, goes on at pc + 4, and leaves the rest as before. The funct values and the operation are those the spec gives
from general knowledge (G1, G2: log 12). Rests on spec/48_alu_register.md R211, R212. -/
def Obligations.AddAndSubWrapModulo2To32 : Prop :=
  Selects 0xFE00707F 0x00000033 (fun w => .add (rdOf w) (rs1Of w) (rs2Of w)) ∧
  Selects 0xFE00707F 0x40000033 (fun w => .sub (rdOf w) (rs1Of w) (rs2Of w)) ∧
  (∀ (rd rs1 rs2 : Reg) (s : State),
    ∃ t, exec (.add rd rs1 rs2) s = .next t ∧ RegisterResult s t rd (BitVec.ofNat 32 ((s.x rs1).toNat + (s.x rs2).toNat)) ∧ t.pc = s.pc + 4) ∧
  (∀ (rd rs1 rs2 : Reg) (s : State),
    ∃ t, exec (.sub rd rs1 rs2) s = .next t ∧ RegisterResult s t rd (BitVec.ofInt 32 ((s.x rs1).toNat - (s.x rs2).toNat)) ∧ t.pc = s.pc + 4)

/-- Every word with opcode 0x33 and (funct7, funct3) = (0x00, 1), (0x00, 5), (0x20, 5) is SLL, SRL, SRA. With k =
u(x[rs2]) modulo 32 each completes in every state and writes x[rs1] * 2^k modulo 2^32, u(x[rs1]) / 2^k, s(x[rs1]) /
2^k rounded down to rd (nothing if rd is x0); the pc goes to pc + 4 and the rest is as before. The funct values and
the operation are those the spec gives from general knowledge (G1, G2: log 12). Rests on spec/48_alu_register.md
R213, R217, R218. -/
def Obligations.RegisterShiftsUseTheLowFiveBits : Prop :=
  Selects 0xFE00707F 0x00001033 (fun w => .sll (rdOf w) (rs1Of w) (rs2Of w)) ∧
  Selects 0xFE00707F 0x00005033 (fun w => .srl (rdOf w) (rs1Of w) (rs2Of w)) ∧
  Selects 0xFE00707F 0x40005033 (fun w => .sra (rdOf w) (rs1Of w) (rs2Of w)) ∧
  (∀ (rd rs1 rs2 : Reg) (s : State),
    ∃ t, exec (.sll rd rs1 rs2) s = .next t ∧ RegisterResult s t rd (BitVec.ofNat 32 ((s.x rs1).toNat * 2 ^ ((s.x rs2).toNat % 32))) ∧ t.pc = s.pc + 4) ∧
  (∀ (rd rs1 rs2 : Reg) (s : State),
    ∃ t, exec (.srl rd rs1 rs2) s = .next t ∧ RegisterResult s t rd (BitVec.ofNat 32 ((s.x rs1).toNat / 2 ^ ((s.x rs2).toNat % 32))) ∧ t.pc = s.pc + 4) ∧
  (∀ (rd rs1 rs2 : Reg) (s : State),
    ∃ t, exec (.sra rd rs1 rs2) s = .next t ∧ RegisterResult s t rd (BitVec.ofInt 32 ((s.x rs1).toInt / 2 ^ ((s.x rs2).toNat % 32))) ∧ t.pc = s.pc + 4)

/-- Every word with opcode 0x33, funct7 0x00 and funct3 2 (3) is SLT (SLTU). Each completes in every state and writes 1
to rd if s(x[rs1]) < s(x[rs2]) (u(x[rs1]) < u(x[rs2])) and 0 otherwise, nothing if rd is x0; the pc goes to pc + 4
and the rest is as before. The funct values and the operation are those the spec gives from general knowledge (G1,
G2: log 12). Rests on spec/48_alu_register.md R214, R215. -/
def Obligations.RegisterComparesWriteZeroOrOne : Prop :=
  Selects 0xFE00707F 0x00002033 (fun w => .slt (rdOf w) (rs1Of w) (rs2Of w)) ∧
  Selects 0xFE00707F 0x00003033 (fun w => .sltu (rdOf w) (rs1Of w) (rs2Of w)) ∧
  (∀ (rd rs1 rs2 : Reg) (s : State),
    ∃ t, exec (.slt rd rs1 rs2) s = .next t ∧ RegisterResult s t rd (if (s.x rs1).toInt < (s.x rs2).toInt then 1 else 0) ∧ t.pc = s.pc + 4) ∧
  (∀ (rd rs1 rs2 : Reg) (s : State),
    ∃ t, exec (.sltu rd rs1 rs2) s = .next t ∧ RegisterResult s t rd (if (s.x rs1).toNat < (s.x rs2).toNat then 1 else 0) ∧ t.pc = s.pc + 4)

/-- Every word with opcode 0x33, funct7 0x00 and funct3 4, 6, 7 is XOR, OR, AND. Each completes in every state; the
value written to rd (nothing if rd is x0) has at each of its 32 bits the exclusive-or, or, and of the two operands'
bits; the pc goes to pc + 4 and the rest is as before. The funct values and the operation are those the spec gives
from general knowledge (G1, G2: log 12). Rests on spec/48_alu_register.md R216, R219, R220. -/
def Obligations.RegisterLogicCombinesBitByBit : Prop :=
  Selects 0xFE00707F 0x00004033 (fun w => .xor (rdOf w) (rs1Of w) (rs2Of w)) ∧
  Selects 0xFE00707F 0x00006033 (fun w => .or (rdOf w) (rs1Of w) (rs2Of w)) ∧
  Selects 0xFE00707F 0x00007033 (fun w => .and (rdOf w) (rs1Of w) (rs2Of w)) ∧
  (∀ (rd rs1 rs2 : Reg) (s : State),
    ∃ t v, exec (.xor rd rs1 rs2) s = .next t ∧ RegisterResult s t rd v ∧ t.pc = s.pc + 4 ∧
      ∀ k, k < 32 → v.getLsbD k = ((s.x rs1).getLsbD k ^^ (s.x rs2).getLsbD k)) ∧
  (∀ (rd rs1 rs2 : Reg) (s : State),
    ∃ t v, exec (.or rd rs1 rs2) s = .next t ∧ RegisterResult s t rd v ∧ t.pc = s.pc + 4 ∧
      ∀ k, k < 32 → v.getLsbD k = ((s.x rs1).getLsbD k || (s.x rs2).getLsbD k)) ∧
  (∀ (rd rs1 rs2 : Reg) (s : State),
    ∃ t v, exec (.and rd rs1 rs2) s = .next t ∧ RegisterResult s t rd v ∧ t.pc = s.pc + 4 ∧
      ∀ k, k < 32 → v.getLsbD k = ((s.x rs1).getLsbD k && (s.x rs2).getLsbD k))
end

