-- ==== Sys2Proof/Laws/Decode.lean ====
section
/-! SUPPORT. Laws of the encodings: each field read back from each format, the masks of the opcode map as conditions on
fields, the decoder by opcode, and the extractor against the decoder's slices. -/

namespace Sys2Proof

/-! ### Fields read back from the formats -/

@[simp] theorem insnOpcode_encodeU (imm20 : BitVec 20) (rd : Reg) (op : BitVec 7) :
    insnOpcode (encodeU imm20 rd op) = op := by
  apply BitVec.eq_of_getLsbD_eq
  intro i hi
  simp only [insnOpcode, slice, encodeU, BitVec.getLsbD_append, BitVec.getLsbD_extractLsb']
  interval_cases i <;> simp

@[simp] theorem insnRd_encodeU (imm20 : BitVec 20) (rd : Reg) (op : BitVec 7) :
    insnRd (encodeU imm20 rd op) = rd := by
  apply BitVec.eq_of_getLsbD_eq
  intro i hi
  simp only [insnRd, slice, encodeU, BitVec.getLsbD_append, BitVec.getLsbD_extractLsb']
  interval_cases i <;> simp

@[simp] theorem insnImm20_encodeU (imm20 : BitVec 20) (rd : Reg) (op : BitVec 7) :
    insnImm20 (encodeU imm20 rd op) = imm20 := by
  apply BitVec.eq_of_getLsbD_eq
  intro i hi
  simp only [insnImm20, slice, encodeU, BitVec.getLsbD_append, BitVec.getLsbD_extractLsb']
  interval_cases i <;> simp

@[simp] theorem insnOpcode_encodeJ (offset : BitVec 21) (rd : Reg) (op : BitVec 7) :
    insnOpcode (encodeJ offset rd op) = op := by
  apply BitVec.eq_of_getLsbD_eq
  intro i hi
  simp only [insnOpcode, slice, encodeJ, BitVec.getLsbD_append, BitVec.getLsbD_extractLsb']
  interval_cases i <;> simp

@[simp] theorem insnRd_encodeJ (offset : BitVec 21) (rd : Reg) (op : BitVec 7) :
    insnRd (encodeJ offset rd op) = rd := by
  apply BitVec.eq_of_getLsbD_eq
  intro i hi
  simp only [insnRd, slice, encodeJ, BitVec.getLsbD_append, BitVec.getLsbD_extractLsb']
  interval_cases i <;> simp

@[simp] theorem insnOpcode_encodeB (offset : BitVec 13) (rs2 rs1 : Reg) (f3 : BitVec 3) (op : BitVec 7) :
    insnOpcode (encodeB offset rs2 rs1 f3 op) = op := by
  apply BitVec.eq_of_getLsbD_eq
  intro i hi
  simp only [insnOpcode, slice, encodeB, BitVec.getLsbD_append, BitVec.getLsbD_extractLsb']
  interval_cases i <;> simp

@[simp] theorem insnFunct3_encodeB (offset : BitVec 13) (rs2 rs1 : Reg) (f3 : BitVec 3) (op : BitVec 7) :
    insnFunct3 (encodeB offset rs2 rs1 f3 op) = f3 := by
  apply BitVec.eq_of_getLsbD_eq
  intro i hi
  simp only [insnFunct3, slice, encodeB, BitVec.getLsbD_append, BitVec.getLsbD_extractLsb']
  interval_cases i <;> simp

@[simp] theorem insnRs1_encodeB (offset : BitVec 13) (rs2 rs1 : Reg) (f3 : BitVec 3) (op : BitVec 7) :
    insnRs1 (encodeB offset rs2 rs1 f3 op) = rs1 := by
  apply BitVec.eq_of_getLsbD_eq
  intro i hi
  simp only [insnRs1, slice, encodeB, BitVec.getLsbD_append, BitVec.getLsbD_extractLsb']
  interval_cases i <;> simp

@[simp] theorem insnRs2_encodeB (offset : BitVec 13) (rs2 rs1 : Reg) (f3 : BitVec 3) (op : BitVec 7) :
    insnRs2 (encodeB offset rs2 rs1 f3 op) = rs2 := by
  apply BitVec.eq_of_getLsbD_eq
  intro i hi
  simp only [insnRs2, slice, encodeB, BitVec.getLsbD_append, BitVec.getLsbD_extractLsb']
  interval_cases i <;> simp

@[simp] theorem insnOpcode_encodeI (imm : BitVec 12) (rs1 : Reg) (f3 : BitVec 3) (rd : Reg) (op : BitVec 7) :
    insnOpcode (encodeI imm rs1 f3 rd op) = op := by
  apply BitVec.eq_of_getLsbD_eq
  intro i hi
  simp only [insnOpcode, slice, encodeI, BitVec.getLsbD_append, BitVec.getLsbD_extractLsb']
  interval_cases i <;> simp

@[simp] theorem insnFunct3_encodeI (imm : BitVec 12) (rs1 : Reg) (f3 : BitVec 3) (rd : Reg) (op : BitVec 7) :
    insnFunct3 (encodeI imm rs1 f3 rd op) = f3 := by
  apply BitVec.eq_of_getLsbD_eq
  intro i hi
  simp only [insnFunct3, slice, encodeI, BitVec.getLsbD_append, BitVec.getLsbD_extractLsb']
  interval_cases i <;> simp

@[simp] theorem insnRs1_encodeI (imm : BitVec 12) (rs1 : Reg) (f3 : BitVec 3) (rd : Reg) (op : BitVec 7) :
    insnRs1 (encodeI imm rs1 f3 rd op) = rs1 := by
  apply BitVec.eq_of_getLsbD_eq
  intro i hi
  simp only [insnRs1, slice, encodeI, BitVec.getLsbD_append, BitVec.getLsbD_extractLsb']
  interval_cases i <;> simp

@[simp] theorem insnRd_encodeI (imm : BitVec 12) (rs1 : Reg) (f3 : BitVec 3) (rd : Reg) (op : BitVec 7) :
    insnRd (encodeI imm rs1 f3 rd op) = rd := by
  apply BitVec.eq_of_getLsbD_eq
  intro i hi
  simp only [insnRd, slice, encodeI, BitVec.getLsbD_append, BitVec.getLsbD_extractLsb']
  interval_cases i <;> simp

@[simp] theorem insnImmI_encodeI (imm : BitVec 12) (rs1 : Reg) (f3 : BitVec 3) (rd : Reg) (op : BitVec 7) :
    insnImmI (encodeI imm rs1 f3 rd op) = imm := by
  apply BitVec.eq_of_getLsbD_eq
  intro i hi
  simp only [insnImmI, slice, encodeI, BitVec.getLsbD_append, BitVec.getLsbD_extractLsb']
  interval_cases i <;> simp

@[simp] theorem insnOpcode_encodeS (imm : BitVec 12) (rs2 rs1 : Reg) (f3 : BitVec 3) (op : BitVec 7) :
    insnOpcode (encodeS imm rs2 rs1 f3 op) = op := by
  apply BitVec.eq_of_getLsbD_eq
  intro i hi
  simp only [insnOpcode, slice, encodeS, BitVec.getLsbD_append, BitVec.getLsbD_extractLsb']
  interval_cases i <;> simp

@[simp] theorem insnFunct3_encodeS (imm : BitVec 12) (rs2 rs1 : Reg) (f3 : BitVec 3) (op : BitVec 7) :
    insnFunct3 (encodeS imm rs2 rs1 f3 op) = f3 := by
  apply BitVec.eq_of_getLsbD_eq
  intro i hi
  simp only [insnFunct3, slice, encodeS, BitVec.getLsbD_append, BitVec.getLsbD_extractLsb']
  interval_cases i <;> simp

@[simp] theorem insnRs1_encodeS (imm : BitVec 12) (rs2 rs1 : Reg) (f3 : BitVec 3) (op : BitVec 7) :
    insnRs1 (encodeS imm rs2 rs1 f3 op) = rs1 := by
  apply BitVec.eq_of_getLsbD_eq
  intro i hi
  simp only [insnRs1, slice, encodeS, BitVec.getLsbD_append, BitVec.getLsbD_extractLsb']
  interval_cases i <;> simp

@[simp] theorem insnRs2_encodeS (imm : BitVec 12) (rs2 rs1 : Reg) (f3 : BitVec 3) (op : BitVec 7) :
    insnRs2 (encodeS imm rs2 rs1 f3 op) = rs2 := by
  apply BitVec.eq_of_getLsbD_eq
  intro i hi
  simp only [insnRs2, slice, encodeS, BitVec.getLsbD_append, BitVec.getLsbD_extractLsb']
  interval_cases i <;> simp

@[simp] theorem insnImmS_encodeS (imm : BitVec 12) (rs2 rs1 : Reg) (f3 : BitVec 3) (op : BitVec 7) :
    insnImmS (encodeS imm rs2 rs1 f3 op) = imm := by
  apply BitVec.eq_of_getLsbD_eq
  intro i hi
  simp only [insnImmS, slice, encodeS, BitVec.getLsbD_append, BitVec.getLsbD_extractLsb']
  interval_cases i <;> simp

@[simp] theorem insnOpcode_encodeR (f7 : BitVec 7) (rs2 rs1 : Reg) (f3 : BitVec 3) (rd : Reg) (op : BitVec 7) :
    insnOpcode (encodeR f7 rs2 rs1 f3 rd op) = op := by
  apply BitVec.eq_of_getLsbD_eq
  intro i hi
  simp only [insnOpcode, slice, encodeR, BitVec.getLsbD_append, BitVec.getLsbD_extractLsb']
  interval_cases i <;> simp

@[simp] theorem insnFunct3_encodeR (f7 : BitVec 7) (rs2 rs1 : Reg) (f3 : BitVec 3) (rd : Reg) (op : BitVec 7) :
    insnFunct3 (encodeR f7 rs2 rs1 f3 rd op) = f3 := by
  apply BitVec.eq_of_getLsbD_eq
  intro i hi
  simp only [insnFunct3, slice, encodeR, BitVec.getLsbD_append, BitVec.getLsbD_extractLsb']
  interval_cases i <;> simp

@[simp] theorem insnFunct7_encodeR (f7 : BitVec 7) (rs2 rs1 : Reg) (f3 : BitVec 3) (rd : Reg) (op : BitVec 7) :
    insnFunct7 (encodeR f7 rs2 rs1 f3 rd op) = f7 := by
  apply BitVec.eq_of_getLsbD_eq
  intro i hi
  simp only [insnFunct7, slice, encodeR, BitVec.getLsbD_append, BitVec.getLsbD_extractLsb']
  interval_cases i <;> simp

@[simp] theorem insnRs1_encodeR (f7 : BitVec 7) (rs2 rs1 : Reg) (f3 : BitVec 3) (rd : Reg) (op : BitVec 7) :
    insnRs1 (encodeR f7 rs2 rs1 f3 rd op) = rs1 := by
  apply BitVec.eq_of_getLsbD_eq
  intro i hi
  simp only [insnRs1, slice, encodeR, BitVec.getLsbD_append, BitVec.getLsbD_extractLsb']
  interval_cases i <;> simp

@[simp] theorem insnRs2_encodeR (f7 : BitVec 7) (rs2 rs1 : Reg) (f3 : BitVec 3) (rd : Reg) (op : BitVec 7) :
    insnRs2 (encodeR f7 rs2 rs1 f3 rd op) = rs2 := by
  apply BitVec.eq_of_getLsbD_eq
  intro i hi
  simp only [insnRs2, slice, encodeR, BitVec.getLsbD_append, BitVec.getLsbD_extractLsb']
  interval_cases i <;> simp

@[simp] theorem insnRd_encodeR (f7 : BitVec 7) (rs2 rs1 : Reg) (f3 : BitVec 3) (rd : Reg) (op : BitVec 7) :
    insnRd (encodeR f7 rs2 rs1 f3 rd op) = rd := by
  apply BitVec.eq_of_getLsbD_eq
  intro i hi
  simp only [insnRd, slice, encodeR, BitVec.getLsbD_append, BitVec.getLsbD_extractLsb']
  interval_cases i <;> simp

@[simp] theorem insnShamt_encodeR (f7 : BitVec 7) (rs2 rs1 : Reg) (f3 : BitVec 3) (rd : Reg) (op : BitVec 7) :
    insnShamt (encodeR f7 rs2 rs1 f3 rd op) = rs2 := by
  apply BitVec.eq_of_getLsbD_eq
  intro i hi
  simp only [insnShamt, slice, encodeR, BitVec.getLsbD_append, BitVec.getLsbD_extractLsb']
  interval_cases i <;> simp

@[simp] theorem insnArith_encodeR (f7 : BitVec 7) (rs2 rs1 : Reg) (f3 : BitVec 3) (rd : Reg) (op : BitVec 7) :
    insnArith (encodeR f7 rs2 rs1 f3 rd op) = f7.extractLsb' 5 1 := by
  apply BitVec.eq_of_getLsbD_eq
  intro i hi
  simp only [insnArith, slice, encodeR, BitVec.getLsbD_append, BitVec.getLsbD_extractLsb']
  interval_cases i
  simp

/-- The J format holds every bit of an even offset (R83, R89). -/
theorem insnOffsetJ_encodeJ (offset : BitVec 21) (rd : Reg) (op : BitVec 7) (h : evenOffset offset = true) :
    insnOffsetJ (encodeJ offset rd op) = offset := by
  apply BitVec.eq_of_getLsbD_eq
  intro i hi
  have h0 : offset[0] = false := by simpa [evenOffset] using h
  simp only [insnOffsetJ, slice, encodeJ, BitVec.getLsbD_append, BitVec.getLsbD_extractLsb']
  interval_cases i <;> simp [h0]

/-- The B format holds every bit of an even offset (R84, R90). -/
theorem insnOffsetB_encodeB (offset : BitVec 13) (rs2 rs1 : Reg) (f3 : BitVec 3) (op : BitVec 7)
    (h : evenOffset offset = true) : insnOffsetB (encodeB offset rs2 rs1 f3 op) = offset := by
  apply BitVec.eq_of_getLsbD_eq
  intro i hi
  have h0 : offset[0] = false := by simpa [evenOffset] using h
  simp only [insnOffsetB, slice, encodeB, BitVec.getLsbD_append, BitVec.getLsbD_extractLsb']
  interval_cases i <;> simp [h0]

/-! ### The masks of the opcode map -/

theorem slice_of_and_eq {m v w : Word} (lo len : Nat) (hm : m.extractLsb' lo len = BitVec.allOnes len)
    (h : v &&& m = w &&& m) : v.extractLsb' lo len = w.extractLsb' lo len := by
  have := congrArg (BitVec.extractLsb' lo len) h
  rwa [BitVec.extractLsb'_and, BitVec.extractLsb'_and, hm, BitVec.and_allOnes, BitVec.and_allOnes] at this

/-- Rows selected by the opcode alone. -/
theorem mask_opcode {p : Word} (hp : p &&& 0x0000007F#32 = p) (insn : Word) :
    insn &&& 0x0000007F#32 = p ↔ insnOpcode insn = p.extractLsb' 0 7 := by
  have bits : ∀ w : Word, w &&& 0x0000007F#32 = (w.extractLsb' 0 7).setWidth 32 <<< 0 := by
    intro w
    apply BitVec.eq_of_getLsbD_eq
    intro i hi
    simp only [BitVec.getLsbD_and, BitVec.getLsbD_shiftLeft, BitVec.getLsbD_setWidth,
      BitVec.getLsbD_extractLsb']
    interval_cases i <;> simp
  have inj : ∀ v w : Word, v &&& 0x0000007F#32 = w &&& 0x0000007F#32 ↔ v.extractLsb' 0 7 = w.extractLsb' 0 7 := by
    intro v w
    constructor
    · intro h
      exact slice_of_and_eq 0 7 (by decide) h
    · intro h
      rw [bits v, bits w]
      rw [h]
  conv_lhs => rw [← hp]
  rw [inj]
  rfl

/-- Rows selected by opcode and funct3. -/
theorem mask_opcode_funct3 {p : Word} (hp : p &&& 0x0000707F#32 = p) (insn : Word) :
    insn &&& 0x0000707F#32 = p ↔ insnOpcode insn = p.extractLsb' 0 7 ∧ insnFunct3 insn = p.extractLsb' 12 3 := by
  have bits : ∀ w : Word, w &&& 0x0000707F#32 = (w.extractLsb' 0 7).setWidth 32 <<< 0 ||| (w.extractLsb' 12 3).setWidth 32 <<< 12 := by
    intro w
    apply BitVec.eq_of_getLsbD_eq
    intro i hi
    simp only [BitVec.getLsbD_and, BitVec.getLsbD_or, BitVec.getLsbD_shiftLeft, BitVec.getLsbD_setWidth,
      BitVec.getLsbD_extractLsb']
    interval_cases i <;> simp
  have inj : ∀ v w : Word, v &&& 0x0000707F#32 = w &&& 0x0000707F#32 ↔ v.extractLsb' 0 7 = w.extractLsb' 0 7 ∧ v.extractLsb' 12 3 = w.extractLsb' 12 3 := by
    intro v w
    constructor
    · intro h
      exact ⟨slice_of_and_eq 0 7 (by decide) h, slice_of_and_eq 12 3 (by decide) h⟩
    · intro h
      rw [bits v, bits w]
      simp only [h]
  conv_lhs => rw [← hp]
  rw [inj]
  rfl

/-- SRLI and SRAI: opcode, funct3 and insn[30]. -/
theorem mask_shift {p : Word} (hp : p &&& 0x4000707F#32 = p) (insn : Word) :
    insn &&& 0x4000707F#32 = p ↔ insnOpcode insn = p.extractLsb' 0 7 ∧ insnFunct3 insn = p.extractLsb' 12 3 ∧ insnArith insn = p.extractLsb' 30 1 := by
  have bits : ∀ w : Word, w &&& 0x4000707F#32 = (w.extractLsb' 0 7).setWidth 32 <<< 0 ||| (w.extractLsb' 12 3).setWidth 32 <<< 12 ||| (w.extractLsb' 30 1).setWidth 32 <<< 30 := by
    intro w
    apply BitVec.eq_of_getLsbD_eq
    intro i hi
    simp only [BitVec.getLsbD_and, BitVec.getLsbD_or, BitVec.getLsbD_shiftLeft, BitVec.getLsbD_setWidth,
      BitVec.getLsbD_extractLsb']
    interval_cases i <;> simp
  have inj : ∀ v w : Word, v &&& 0x4000707F#32 = w &&& 0x4000707F#32 ↔ v.extractLsb' 0 7 = w.extractLsb' 0 7 ∧ v.extractLsb' 12 3 = w.extractLsb' 12 3 ∧ v.extractLsb' 30 1 = w.extractLsb' 30 1 := by
    intro v w
    constructor
    · intro h
      exact ⟨slice_of_and_eq 0 7 (by decide) h, slice_of_and_eq 12 3 (by decide) h, slice_of_and_eq 30 1 (by decide) h⟩
    · intro h
      rw [bits v, bits w]
      simp only [h]
  conv_lhs => rw [← hp]
  rw [inj]
  rfl

/-- The R rows: opcode, funct3 and funct7. -/
theorem mask_register {p : Word} (hp : p &&& 0xFE00707F#32 = p) (insn : Word) :
    insn &&& 0xFE00707F#32 = p ↔ insnOpcode insn = p.extractLsb' 0 7 ∧ insnFunct3 insn = p.extractLsb' 12 3 ∧ insnFunct7 insn = p.extractLsb' 25 7 := by
  have bits : ∀ w : Word, w &&& 0xFE00707F#32 = (w.extractLsb' 0 7).setWidth 32 <<< 0 ||| (w.extractLsb' 12 3).setWidth 32 <<< 12 ||| (w.extractLsb' 25 7).setWidth 32 <<< 25 := by
    intro w
    apply BitVec.eq_of_getLsbD_eq
    intro i hi
    simp only [BitVec.getLsbD_and, BitVec.getLsbD_or, BitVec.getLsbD_shiftLeft, BitVec.getLsbD_setWidth,
      BitVec.getLsbD_extractLsb']
    interval_cases i <;> simp
  have inj : ∀ v w : Word, v &&& 0xFE00707F#32 = w &&& 0xFE00707F#32 ↔ v.extractLsb' 0 7 = w.extractLsb' 0 7 ∧ v.extractLsb' 12 3 = w.extractLsb' 12 3 ∧ v.extractLsb' 25 7 = w.extractLsb' 25 7 := by
    intro v w
    constructor
    · intro h
      exact ⟨slice_of_and_eq 0 7 (by decide) h, slice_of_and_eq 12 3 (by decide) h, slice_of_and_eq 25 7 (by decide) h⟩
    · intro h
      rw [bits v, bits w]
      simp only [h]
  conv_lhs => rw [← hp]
  rw [inj]
  rfl

/-! ### The decoder by opcode (R94: the opcode sets of the handlers are disjoint) -/

theorem matchWord_0x37 {insn : Word} (h : insnOpcode insn = 0x37#7) : matchWord insn = handleUpper insn := by
  simp [matchWord, handleUpper, handleJal, handleBranch, handleLoad, handleAluImmediate, handleJalr, handleStore,
    handleAluRegister, handleExtension, h]

theorem matchWord_0x17 {insn : Word} (h : insnOpcode insn = 0x17#7) : matchWord insn = handleUpper insn := by
  simp [matchWord, handleUpper, handleJal, handleBranch, handleLoad, handleAluImmediate, handleJalr, handleStore,
    handleAluRegister, handleExtension, h]

theorem matchWord_0x6F {insn : Word} (h : insnOpcode insn = 0x6F#7) : matchWord insn = handleJal insn := by
  simp [matchWord, handleUpper, handleJal, handleBranch, handleLoad, handleAluImmediate, handleJalr, handleStore,
    handleAluRegister, handleExtension, h]

theorem matchWord_0x63 {insn : Word} (h : insnOpcode insn = 0x63#7) : matchWord insn = handleBranch insn := by
  simp [matchWord, handleUpper, handleJal, handleBranch, handleLoad, handleAluImmediate, handleJalr, handleStore,
    handleAluRegister, handleExtension, h]

theorem matchWord_0x03 {insn : Word} (h : insnOpcode insn = 0x03#7) : matchWord insn = handleLoad insn := by
  simp [matchWord, handleUpper, handleJal, handleBranch, handleLoad, handleAluImmediate, handleJalr, handleStore,
    handleAluRegister, handleExtension, h]

theorem matchWord_0x13 {insn : Word} (h : insnOpcode insn = 0x13#7) : matchWord insn = handleAluImmediate insn := by
  simp [matchWord, handleUpper, handleJal, handleBranch, handleLoad, handleAluImmediate, handleJalr, handleStore,
    handleAluRegister, handleExtension, h]

theorem matchWord_0x67 {insn : Word} (h : insnOpcode insn = 0x67#7) : matchWord insn = handleJalr insn := by
  simp [matchWord, handleUpper, handleJal, handleBranch, handleLoad, handleAluImmediate, handleJalr, handleStore,
    handleAluRegister, handleExtension, h]

theorem matchWord_0x23 {insn : Word} (h : insnOpcode insn = 0x23#7) : matchWord insn = handleStore insn := by
  simp [matchWord, handleUpper, handleJal, handleBranch, handleLoad, handleAluImmediate, handleJalr, handleStore,
    handleAluRegister, handleExtension, h]

theorem matchWord_0x33 {insn : Word} (h : insnOpcode insn = 0x33#7) : matchWord insn = handleAluRegister insn := by
  simp [matchWord, handleUpper, handleJal, handleBranch, handleLoad, handleAluImmediate, handleJalr, handleStore,
    handleAluRegister, handleExtension, h]

theorem matchWord_other {insn : Word}
    (h : insnOpcode insn ∉ [0x37#7, 0x17#7, 0x6F#7, 0x63#7, 0x03#7, 0x13#7, 0x67#7, 0x23#7, 0x33#7]) :
    matchWord insn = none := by
  simp only [List.mem_cons, List.not_mem_nil, or_false, not_or] at h
  simp [matchWord, handleUpper, handleJal, handleBranch, handleLoad, handleAluImmediate, handleJalr, handleStore,
    handleAluRegister, handleExtension, h]

/-- decode answers what the chain of handlers answers. -/
theorem decode_eq_ok {insn : Word} {i : Instr} : decode insn = .ok i ↔ matchWord insn = some i := by
  unfold decode
  cases matchWord insn <;> simp

theorem decode_error_iff {insn : Word} : (∃ why, decode insn = .error why) ↔ matchWord insn = none := by
  unfold decode
  cases matchWord insn <;> simp

/-! ### The extractor and the decoder's slices (R116) -/

theorem extractBits_eq_slice (insn : Word) {low high : Nat} (h : low ≤ high) (h31 : high ≤ 31) :
    extractBits insn (.int low) (.int high) = .ok (slice insn low (high - low + 1)).toNat := by
  have h1 : ¬ ((low : Int) < 0 ∨ 31 < (low : Int) ∨ (high : Int) < 0 ∨ 31 < (high : Int)) := by omega
  have h2 : ¬ ((high : Int) < (low : Int)) := by omega
  have h3 : ((high : Int) - (low : Int) + 1).toNat = high - low + 1 := by omega
  simp only [extractBits, h1, h2, if_false, h3, Int.toNat_natCast, slice, BitVec.extractLsb'_toNat]

end Sys2Proof
end

