-- ==== Sys2Proof/Laws/State.lean ====
section
/-! SUPPORT. One lemma for each field of State under each update, and the laws of the register file: what every later
proof uses in place of unfolding a record update. -/

namespace Sys2Proof.Machine

variable (s : State)

/-! ### commit -/

@[simp] theorem commit_pc (p : Word) : (s.commit p).pc = p := rfl
@[simp] theorem commit_regs (p : Word) : (s.commit p).regs = s.regs := rfl
@[simp] theorem commit_mem (p : Word) : (s.commit p).mem = s.mem := rfl
@[simp] theorem commit_params (p : Word) : (s.commit p).params = s.params := rfl
@[simp] theorem commit_memBytes (p : Word) : (s.commit p).memBytes = s.memBytes := rfl
@[simp] theorem commit_cellOf (p a : Word) : (s.commit p).cellOf a = s.cellOf a := rfl
@[simp] theorem commit_x (p : Word) (r : Reg) : (s.commit p).x r = s.x r := rfl
@[simp] theorem commit_byteAt (p a : Word) : (s.commit p).byteAt a = s.byteAt a := rfl

/-! ### setX -/

@[simp] theorem setX_pc (i : Reg) (v : Word) : (s.setX i v).pc = s.pc := by unfold State.setX; split <;> rfl
@[simp] theorem setX_mem (i : Reg) (v : Word) : (s.setX i v).mem = s.mem := by unfold State.setX; split <;> rfl
@[simp] theorem setX_params (i : Reg) (v : Word) : (s.setX i v).params = s.params := by unfold State.setX; split <;> rfl
@[simp] theorem setX_memBytes (i : Reg) (v : Word) : (s.setX i v).memBytes = s.memBytes := by simp [State.memBytes]
@[simp] theorem setX_cellOf (i : Reg) (v a : Word) : (s.setX i v).cellOf a = s.cellOf a := by simp [State.cellOf]
@[simp] theorem setX_byteAt (i : Reg) (v a : Word) : (s.setX i v).byteAt a = s.byteAt a := by simp [State.byteAt]

/-! ### setByte -/

@[simp] theorem setByte_pc (a : Word) (b : Byte) : (s.setByte a b).pc = s.pc := rfl
@[simp] theorem setByte_regs (a : Word) (b : Byte) : (s.setByte a b).regs = s.regs := rfl
@[simp] theorem setByte_mem (a : Word) (b : Byte) : (s.setByte a b).mem = s.mem.write (s.cellOf a) b := rfl
@[simp] theorem setByte_params (a : Word) (b : Byte) : (s.setByte a b).params = s.params := rfl
@[simp] theorem setByte_memBytes (a : Word) (b : Byte) : (s.setByte a b).memBytes = s.memBytes := rfl
@[simp] theorem setByte_cellOf (a c : Word) (b : Byte) : (s.setByte a b).cellOf c = s.cellOf c := rfl
@[simp] theorem setByte_x (a : Word) (b : Byte) (r : Reg) : (s.setByte a b).x r = s.x r := rfl

/-! ### The register file -/

@[simp] theorem x_zero : s.x 0 = 0 := rfl

/-- Read after guarded write: everything the write can do to the registers (R22, R23). -/
@[simp] theorem x_setX (i r : Reg) (v : Word) :
    (s.setX i v).x r = if r = 0 then 0 else if r = i then v else s.x r := by
  unfold State.setX State.x
  by_cases hr : r = 0
  · simp [hr]
  · by_cases hi : i = 0
    · have hr' : r ≠ 0#5 := hr
      simp [hi, hr']
    · simp only [hr, hi, if_false]
      by_cases h : r = i
      · subst h; simp
      · have : i.toNat ≠ r.toNat := fun e => h (BitVec.eq_of_toNat_eq e.symm)
        simp [h, Vector.getElem_set_ne, this]

/-- The slot of x0 is never written. -/
@[simp] theorem setX_regs_zero (i : Reg) (v : Word) : (s.setX i v).regs[0] = s.regs[0] := by
  unfold State.setX
  split
  · rfl
  · next h =>
    have : i.toNat ≠ 0 := fun e => h (BitVec.eq_of_toNat_eq (by simpa using e))
    simp [Vector.getElem_set_ne, this]

/-- Writing x0 writes nothing (R23). -/
@[simp] theorem setX_zero (v : Word) : s.setX 0 v = s := rfl

/-! ### Reads of several bytes see the bytes alone -/

theorem bytesAt_congr {s t : State} (h : ∀ a, t.byteAt a = s.byteAt a) (a : Word) (n : Nat) :
    t.bytesAt a n = s.bytesAt a n := by
  induction n generalizing a with
  | zero => rfl
  | succ n ih => simp [State.bytesAt, h, ih]

theorem memRead_congr {s t : State} (h : ∀ a, t.byteAt a = s.byteAt a) (a : Word) (w : Width) :
    t.memRead a w = s.memRead a w := by
  simp [State.memRead, bytesAt_congr h]

@[simp] theorem memRead_commit (p a : Word) (w : Width) : (s.commit p).memRead a w = s.memRead a w :=
  memRead_congr (s := s) (t := s.commit p) (fun _ => rfl) a w

@[simp] theorem memRead_setX (i : Reg) (v a : Word) (w : Width) : (s.setX i v).memRead a w = s.memRead a w :=
  memRead_congr (s := s) (t := s.setX i v) (fun b => setX_byteAt s i v b) a w

end Sys2Proof.Machine
end

