-- ==== Sys2Proof/Laws/Memory.lean ====
section
/-! SUPPORT. The laws of memory: read after write, the canonical form, and what the little-endian accesses do. -/

namespace Sys2Proof.Machine

/-! ### The list of cells -/

theorem Memory.read_drop (m : Memory) (k j : Nat) :
    (m.drop k).read j = if j = k then Memory.blank else m.read j := by
  induction m with
  | nil => simp [Memory.drop, Memory.read]
  | cons c m ih =>
    obtain ⟨a, b⟩ := c
    simp only [Memory.drop, Memory.read]
    split <;> rename_i h
    · subst h; rw [ih]; split <;> rename_i h2
      · rfl
      · rw [if_neg (Ne.symm h2)]
    · simp only [Memory.read, ih]
      split <;> rename_i h2
      · subst h2; rw [if_neg h]
      · rfl

theorem Memory.length_drop_le (m : Memory) (k : Nat) : (m.drop k).length ≤ m.length := by
  induction m with
  | nil => simp [Memory.drop]
  | cons c m ih => simp only [Memory.drop]; split <;> simp <;> omega

/-- A memory that lists nothing at `k`: neither its head nor its tail does. -/
theorem Memory.drop_cons_eq {a k : Nat} {b : Byte} {m : Memory} (h : Memory.drop ((a, b) :: m) k = (a, b) :: m) :
    a ≠ k ∧ m.drop k = m := by
  have ha : a ≠ k := by
    intro e
    have := congrArg List.length h
    simp only [Memory.drop, e, if_true, List.length_cons] at this
    have := Memory.length_drop_le m k
    omega
  simp only [Memory.drop, ha, if_false, List.cons.injEq, true_and] at h
  exact ⟨ha, h⟩

theorem Memory.read_insert (m : Memory) (k j : Nat) (v : Byte) (hk : m.read k = Memory.blank) (hm : m.drop k = m) :
    (m.insert k v).read j = if j = k then v else m.read j := by
  induction m with
  | nil => simp only [Memory.insert, Memory.read, eq_comm]
  | cons c m ih =>
    obtain ⟨a, b⟩ := c
    obtain ⟨ha, hm⟩ := Memory.drop_cons_eq hm
    simp only [Memory.read, ha, if_false] at hk
    simp only [Memory.insert]
    split
    · simp only [Memory.read, eq_comm]
    · simp only [Memory.read, ih hk hm]
      split <;> rename_i h2
      · subst h2; rw [if_neg ha]
      · rfl

theorem Memory.drop_drop (m : Memory) (k : Nat) : (m.drop k).drop k = m.drop k := by
  induction m with
  | nil => rfl
  | cons c m ih =>
    obtain ⟨a, b⟩ := c
    simp only [Memory.drop]
    split <;> rename_i h
    · exact ih
    · simp [Memory.drop, h, ih]

/-- Read after write (R51, R52), in any memory, canonical or not. -/
@[simp] theorem Memory.read_write (m : Memory) (k j : Nat) (v : Byte) :
    (m.write k v).read j = if j = k then v else m.read j := by
  unfold Memory.write
  split
  · next h => rw [Memory.read_drop, h]
  · rw [Memory.read_insert _ _ _ _ (by simp [Memory.read_drop]) (Memory.drop_drop m k), Memory.read_drop]
    split <;> simp_all

/-! ### The canonical form is kept -/

theorem Memory.wfFrom_mono {m : Memory} {lo lo' : Nat} (h : Memory.wfFrom lo m = true) (hl : lo' ≤ lo) :
    Memory.wfFrom lo' m = true := by
  cases m with
  | nil => rfl
  | cons c m =>
    obtain ⟨a, b⟩ := c
    simp only [Memory.wfFrom, Bool.and_eq_true, decide_eq_true_eq] at h ⊢
    exact ⟨⟨by omega, h.1.2⟩, h.2⟩

theorem Memory.wfFrom_drop {m : Memory} {lo : Nat} (k : Nat) (h : Memory.wfFrom lo m = true) :
    Memory.wfFrom lo (m.drop k) = true := by
  induction m generalizing lo with
  | nil => rfl
  | cons c m ih =>
    obtain ⟨a, b⟩ := c
    simp only [Memory.wfFrom, Bool.and_eq_true, decide_eq_true_eq] at h
    simp only [Memory.drop]
    split
    · exact ih (Memory.wfFrom_mono h.2 (by omega))
    · simp only [Memory.wfFrom, Bool.and_eq_true, decide_eq_true_eq]
      exact ⟨h.1, ih h.2⟩

theorem Memory.wfFrom_insert {m : Memory} {lo : Nat} (k : Nat) (v : Byte) (h : Memory.wfFrom lo m = true)
    (hlo : lo ≤ k) (hv : v ≠ Memory.blank) (hm : m.drop k = m) : Memory.wfFrom lo (m.insert k v) = true := by
  induction m generalizing lo with
  | nil => simp [Memory.insert, Memory.wfFrom, hlo, hv]
  | cons c m ih =>
    obtain ⟨a, b⟩ := c
    obtain ⟨ha, hm⟩ := Memory.drop_cons_eq hm
    simp only [Memory.wfFrom, Bool.and_eq_true, decide_eq_true_eq] at h
    simp only [Memory.insert]
    split <;> rename_i hka
    · simp only [Memory.wfFrom, Bool.and_eq_true, decide_eq_true_eq]
      exact ⟨⟨hlo, by simpa using hv⟩, ⟨by omega, h.1.2⟩, h.2⟩
    · simp only [Memory.wfFrom, Bool.and_eq_true, decide_eq_true_eq]
      exact ⟨h.1, ih h.2 (by omega) hm⟩

/-- Every write keeps the canonical form. -/
theorem Memory.wf_write {m : Memory} (k : Nat) (v : Byte) (h : m.wf = true) : (m.write k v).wf = true := by
  unfold Memory.write
  split
  · exact Memory.wfFrom_drop k h
  · next hv => exact Memory.wfFrom_insert k v (Memory.wfFrom_drop k h) (Nat.zero_le k) hv (Memory.drop_drop m k)

/-- Every write below N keeps the listed addresses below N. -/
theorem Memory.within_write {n : Nat} {m : Memory} (k : Nat) (v : Byte) (h : m.within n = true) (hk : k < n) :
    (m.write k v).within n = true := by
  have hd : Memory.within n (m.drop k) = true := by
    induction m with
    | nil => rfl
    | cons c m ih =>
      simp only [Memory.within, List.all_cons, Bool.and_eq_true] at h ih
      simp only [Memory.drop]
      split
      · exact ih h.2
      · simp only [Memory.within, List.all_cons, Bool.and_eq_true]
        exact ⟨h.1, ih h.2⟩
  have hi : ∀ m : Memory, Memory.within n m = true → Memory.within n (m.insert k v) = true := by
    intro m hm
    induction m with
    | nil => simp [Memory.insert, Memory.within, hk]
    | cons c m ih =>
      simp only [Memory.within, List.all_cons, Bool.and_eq_true] at hm ih
      simp only [Memory.insert]
      split
      · simp only [Memory.within, List.all_cons, Bool.and_eq_true, decide_eq_true_eq]
        exact ⟨hk, by simpa using hm.1, hm.2⟩
      · simp only [Memory.within, List.all_cons, Bool.and_eq_true]
        exact ⟨hm.1, ih hm.2⟩
  unfold Memory.write
  split
  · exact hd
  · exact hi _ hd

/-! ### Addresses -/

theorem memBytes_pos (s : State) : 0 < s.memBytes := Nat.two_pow_pos _

theorem four_le_memBytes (s : State) : 4 ≤ s.memBytes := by
  have := Nat.pow_le_pow_right (n := 2) (by omega) s.params.memSize.two_le
  simpa [State.memBytes, MemSize.bytes] using this

/-- N divides 2^32 (R54). -/
theorem memBytes_dvd (s : State) : s.memBytes ∣ 2 ^ 32 := Nat.pow_dvd_pow 2 s.params.memSize.le_32

theorem cellOf_lt (s : State) (a : Word) : s.cellOf a < s.memBytes := Nat.mod_lt _ (memBytes_pos s)

/-- Reducing a sum modulo 2^32 first never changes the cell (R55). -/
theorem cellOf_add (s : State) (a b : Word) : s.cellOf (a + b) = (a.toNat + b.toNat) % s.memBytes := by
  simp only [State.cellOf, BitVec.toNat_add]
  exact Nat.mod_mod_of_dvd _ (memBytes_dvd s)

/-- The four bytes of an access have four different cells (R57). -/
theorem cellOf_add_inj (s : State) (a : Word) {i j : Nat} (hi : i < 4) (hj : j < 4)
    (h : s.cellOf (a + BitVec.ofNat 32 i) = s.cellOf (a + BitVec.ofNat 32 j)) : i = j := by
  have h4 := four_le_memBytes s
  rw [cellOf_add, cellOf_add] at h
  simp only [BitVec.toNat_ofNat] at h
  rw [Nat.mod_eq_of_lt (by omega : i < 2 ^ 32), Nat.mod_eq_of_lt (by omega : j < 2 ^ 32)] at h
  have hm : i % s.memBytes = j % s.memBytes := Nat.ModEq.add_left_cancel' a.toNat h
  rwa [Nat.mod_eq_of_lt (by omega), Nat.mod_eq_of_lt (by omega)] at hm

/-! ### Bytes -/

@[simp] theorem byteAt_setByte (s : State) (a c : Word) (b : Byte) :
    (s.setByte a b).byteAt c = if s.cellOf c = s.cellOf a then b else s.byteAt c := by
  simp [State.byteAt]

/-! ### setBytes and memWrite -/

theorem setBytes_frame (bs : List Byte) (s : State) (a : Word) :
    (s.setBytes a bs).pc = s.pc ∧ (s.setBytes a bs).regs = s.regs ∧ (s.setBytes a bs).params = s.params := by
  induction bs generalizing s a with
  | nil => exact ⟨rfl, rfl, rfl⟩
  | cons b bs ih => simpa [State.setBytes] using ih (s.setByte a b) (a + 1)

theorem memWrite_pc (s : State) (a : Word) (w : Width) (v : Word) : (s.memWrite a w v).pc = s.pc :=
  (setBytes_frame _ s a).1

theorem memWrite_regs (s : State) (a : Word) (w : Width) (v : Word) : (s.memWrite a w v).regs = s.regs :=
  (setBytes_frame _ s a).2.1

theorem memWrite_params (s : State) (a : Word) (w : Width) (v : Word) : (s.memWrite a w v).params = s.params :=
  (setBytes_frame _ s a).2.2

theorem memWrite_x (s : State) (a : Word) (w : Width) (v : Word) (r : Reg) : (s.memWrite a w v).x r = s.x r := by
  simp [State.x, memWrite_regs]

theorem memWrite_memBytes (s : State) (a : Word) (w : Width) (v : Word) : (s.memWrite a w v).memBytes = s.memBytes := by
  simp [State.memBytes, memWrite_params]

theorem memWrite_cellOf (s : State) (a : Word) (w : Width) (v c : Word) :
    (s.memWrite a w v).cellOf c = s.cellOf c := by
  simp [State.cellOf, memWrite_memBytes]

/-- memWrite keeps the canonical form and the bound on addresses. -/
theorem setBytes_wf (bs : List Byte) (s : State) (a : Word) (h : s.mem.wf = true)
    (hw : s.mem.within s.memBytes = true) :
    (s.setBytes a bs).mem.wf = true ∧ (s.setBytes a bs).mem.within s.memBytes = true := by
  induction bs generalizing s a with
  | nil => exact ⟨h, hw⟩
  | cons b bs ih =>
    exact ih (s.setByte a b) (a + 1) (Memory.wf_write _ _ h) (Memory.within_write _ _ hw (cellOf_lt s a))

theorem succ_addr (a : Word) (i : Nat) : a + 1 + BitVec.ofNat 32 i = a + BitVec.ofNat 32 (i + 1) := by
  rw [BitVec.add_assoc, Nat.add_comm i 1, BitVec.ofNat_add]
  rfl

/-- Outside its bytes setBytes changes nothing. -/
theorem byteAt_setBytes_outside (bs : List Byte) (s : State) (a c : Word)
    (h : ∀ i, i < bs.length → s.cellOf c ≠ s.cellOf (a + BitVec.ofNat 32 i)) :
    (s.setBytes a bs).byteAt c = s.byteAt c := by
  induction bs generalizing s a with
  | nil => rfl
  | cons b bs ih =>
    have h0 : s.cellOf c ≠ s.cellOf a := by simpa using h 0 (by simp)
    rw [State.setBytes, ih, byteAt_setByte, if_neg h0]
    intro i hi
    rw [succ_addr]
    exact h (i + 1) (by simpa using hi)

theorem length_lowBytes (v : Word) (n : Nat) : (lowBytes v n).length = n := by
  induction n generalizing v with
  | zero => rfl
  | succ n ih => simp [lowBytes, ih]

/-- Outside its bytes memWrite changes nothing (R57). -/
theorem byteAt_memWrite_outside {s : State} {a c : Word} {w : Width} (v : Word) (h : ¬ s.touches a w c) :
    (s.memWrite a w v).byteAt c = s.byteAt c := by
  refine byteAt_setBytes_outside _ s a c fun i hi e => h ⟨i, ?_, e⟩
  simpa [length_lowBytes] using hi

/-- An access to the cell of another address is an access to that cell. -/
theorem byteAt_eq_of_cellOf_eq {s : State} {a b : Word} (h : s.cellOf a = s.cellOf b) : s.byteAt a = s.byteAt b := by
  simp [State.byteAt, h]

/-- setBytes stores each byte of at most four at its address. -/
theorem byteAt_setBytes_inside (bs : List Byte) (s : State) (a : Word) (hl : bs.length ≤ 4) {i : Nat}
    (hi : i < bs.length) : (s.setBytes a bs).byteAt (a + BitVec.ofNat 32 i) = bs[i] := by
  induction bs generalizing s a i with
  | nil => simp at hi
  | cons b bs ih =>
    rw [List.length_cons] at hl hi
    cases i with
    | zero =>
      rw [State.setBytes, byteAt_setBytes_outside]
      · simp
      · intro j hj e
        rw [succ_addr] at e
        have := cellOf_add_inj s a (by omega) (by omega) e
        omega
    | succ i =>
      rw [State.setBytes, ← succ_addr, ih _ _ (by omega) (by omega)]
      simp

theorem lowBytes_getElem (v : Word) (n i : Nat) (h : i < (lowBytes v n).length) :
    (lowBytes v n)[i] = v.extractLsb' (8 * i) 8 := by
  induction n generalizing v i with
  | zero => simp [lowBytes] at h
  | succ n ih =>
    cases i with
    | zero => rfl
    | succ i =>
      simp only [lowBytes, List.getElem_cons_succ, ih]
      ext k hk
      simp only [BitVec.getElem_extractLsb', BitVec.getLsbD_ushiftRight]
      congr 1
      omega

theorem width_bytes_le (w : Width) : w.bytes ≤ 4 := by cases w <;> decide

/-- memWrite stores the low bytes, least significant first (R57). -/
theorem byteAt_memWrite_inside (s : State) (a v : Word) {w : Width} {i : Nat} (hi : i < w.bytes) :
    (s.memWrite a w v).byteAt (a + BitVec.ofNat 32 i) = v.extractLsb' (8 * i) 8 := by
  have hl := length_lowBytes v w.bytes
  rw [State.memWrite, byteAt_setBytes_inside _ s a (by rw [hl]; exact width_bytes_le w) (by rwa [hl]), lowBytes_getElem]

/-! ### memRead -/

/-- The bytes of an access make up the word, least significant first (R56). -/
theorem memRead_word (s : State) (a : Word) :
    s.memRead a .word = s.byteAt (a + 3) ++ s.byteAt (a + 2) ++ s.byteAt (a + 1) ++ s.byteAt a := by
  have e2 : a + 1 + 1 = a + 2 := by rw [BitVec.add_assoc]; rfl
  have e3 : a + 2 + 1 = a + 3 := by rw [BitVec.add_assoc]; rfl
  apply BitVec.eq_of_toNat_eq
  simp only [State.memRead, Width.bytes, State.bytesAt, assemble, e2, e3, BitVec.toNat_ofNat, BitVec.toNat_append]
  have h0 := (s.byteAt a).isLt
  have h1 := (s.byteAt (a + 1)).isLt
  have h2 := (s.byteAt (a + 2)).isLt
  have h3 := (s.byteAt (a + 3)).isLt
  rw [← Nat.shiftLeft_add_eq_or_of_lt h2, ← Nat.shiftLeft_add_eq_or_of_lt h1, ← Nat.shiftLeft_add_eq_or_of_lt h0]
  simp only [Nat.shiftLeft_eq]
  omega

theorem memRead_half (s : State) (a : Word) :
    s.memRead a .half = (s.byteAt (a + 1) ++ s.byteAt a).setWidth 32 := by
  apply BitVec.eq_of_toNat_eq
  simp only [State.memRead, Width.bytes, State.bytesAt, assemble, BitVec.toNat_ofNat, BitVec.toNat_append,
    BitVec.toNat_setWidth]
  have h0 := (s.byteAt a).isLt
  have h1 := (s.byteAt (a + 1)).isLt
  rw [← Nat.shiftLeft_add_eq_or_of_lt h0]
  simp only [Nat.shiftLeft_eq]
  omega

theorem memRead_byte (s : State) (a : Word) : s.memRead a .byte = (s.byteAt a).setWidth 32 := by
  apply BitVec.eq_of_toNat_eq
  simp [State.memRead, Width.bytes, State.bytesAt, assemble]

end Sys2Proof.Machine
end

