-- ==== Sys2Proof/Laws/Machine.lean ====
section
/-! SUPPORT. What each ending of a meaning does, once; what exec and step can do, once; and the invariant under each
ending. -/

namespace Sys2Proof.Machine

/-! ### The endings -/

theorem retire_result (s : State) (rd : Reg) (v : Word) : RegisterResult s (s.retire rd v) rd v :=
  ⟨fun r => by simp [State.retire], fun a => by simp [State.retire], by simp [State.retire]⟩

@[simp] theorem retire_pc (s : State) (rd : Reg) (v : Word) : (s.retire rd v).pc = s.pc + 4 := rfl

theorem jumpAndLink_result (s : State) (rd : Reg) (target : Word) :
    RegisterResult s (s.jumpAndLink rd target) rd (s.pc + 4) :=
  ⟨fun r => by simp [State.jumpAndLink, State.seqPc], fun a => by simp [State.jumpAndLink],
    by simp [State.jumpAndLink]⟩

@[simp] theorem jumpAndLink_pc (s : State) (rd : Reg) (target : Word) : (s.jumpAndLink rd target).pc = target := rfl

theorem branch_result (s : State) (taken : Bool) (target : Word) : NoResult s (s.branch taken target) :=
  ⟨fun _ => rfl, fun _ => rfl, rfl⟩

@[simp] theorem branch_pc (s : State) (taken : Bool) (target : Word) :
    (s.branch taken target).pc = if taken then target else s.pc + 4 := rfl

theorem store_result (s : State) (a : Word) (w : Width) (v : Word) : StoreResult s (s.store a w v) a w v :=
  ⟨fun r => by simp [State.store, memWrite_x],
    fun i hi => by simp [State.store, byteAt_memWrite_inside s a v hi],
    fun b hb => by simp [State.store, byteAt_memWrite_outside v hb],
    by simp [State.store, memWrite_params]⟩

@[simp] theorem store_pc (s : State) (a : Word) (w : Width) (v : Word) : (s.store a w v).pc = s.pc + 4 := rfl

/-! ### What exec and step can do -/

/-- Every next state of exec is one of the four endings. -/
theorem exec_cases {i : Instr} {s t : State} (h : exec i s = .next t) :
    (∃ rd v, destination i = some rd ∧ storeTarget s i = none ∧ t = s.retire rd v) ∨
    (∃ rd target, destination i = some rd ∧ storeTarget s i = none ∧ t = s.jumpAndLink rd target) ∨
    (∃ taken target, destination i = none ∧ storeTarget s i = none ∧ t = s.branch taken target) ∨
    (∃ a w v, destination i = none ∧ storeTarget s i = some (a, w) ∧ t = s.store a w v) := by
  cases i <;> injection h with h <;> subst h
  case jal => exact .inr (.inl ⟨_, _, rfl, rfl, rfl⟩)
  case jalr => exact .inr (.inl ⟨_, _, rfl, rfl, rfl⟩)
  case beq => exact .inr (.inr (.inl ⟨_, _, rfl, rfl, rfl⟩))
  case bne => exact .inr (.inr (.inl ⟨_, _, rfl, rfl, rfl⟩))
  case blt => exact .inr (.inr (.inl ⟨_, _, rfl, rfl, rfl⟩))
  case bge => exact .inr (.inr (.inl ⟨_, _, rfl, rfl, rfl⟩))
  case bltu => exact .inr (.inr (.inl ⟨_, _, rfl, rfl, rfl⟩))
  case bgeu => exact .inr (.inr (.inl ⟨_, _, rfl, rfl, rfl⟩))
  case sb => exact .inr (.inr (.inr ⟨_, _, _, rfl, rfl, rfl⟩))
  case sh => exact .inr (.inr (.inr ⟨_, _, _, rfl, rfl, rfl⟩))
  case sw => exact .inr (.inr (.inr ⟨_, _, _, rfl, rfl, rfl⟩))
  all_goals exact .inl ⟨_, _, rfl, rfl, rfl⟩

theorem unmatched_cases {insn : Word} {s t : State} (h : unmatched insn s = .next t) :
    s.params.unmatchedPolicy = .nop ∧ t = s.commit s.seqPc := by
  unfold unmatched at h
  split at h
  · next hp => injection h with h; exact ⟨hp, h.symm⟩
  · cases h

/-- Every next state of step is exec's at the decoded instruction, or the unmatched word's pc + 4. -/
theorem step_cases {s t : State} (h : step s = .next t) :
    (∃ i, decode s.fetch = .ok i ∧ exec i s = .next t) ∨
    (∃ why, decode s.fetch = .error why ∧ s.params.unmatchedPolicy = .nop ∧ t = s.commit s.seqPc) := by
  unfold step at h
  split at h
  · next i hd => exact .inl ⟨i, hd, h⟩
  · next why hd => exact .inr ⟨why, hd, unmatched_cases h⟩

/-! ### The invariant under each ending -/

theorem inv_commit {s : State} (p : Word) (h : s.Inv) : (s.commit p).Inv := h

theorem inv_setX {s : State} (i : Reg) (v : Word) (h : s.Inv) : (s.setX i v).Inv := by
  obtain ⟨hw, hn, hz⟩ := h
  exact ⟨by simpa using hw, by simpa using hn, by simpa using hz⟩

theorem inv_memWrite {s : State} (a : Word) (w : Width) (v : Word) (h : s.Inv) : (s.memWrite a w v).Inv := by
  obtain ⟨hw, hn, hz⟩ := h
  obtain ⟨hw', hn'⟩ := setBytes_wf (lowBytes v w.bytes) s a hw hn
  exact ⟨hw', by rw [memWrite_memBytes]; exact hn', by rw [memWrite_regs]; exact hz⟩

end Sys2Proof.Machine
end

