-- ==== Sys2Proof/Laws/PerInstr.lean ====
section
/-! SUPPORT. One lemma for each instruction: the encoding satisfies the mask and match of the instruction's row of the
opcode map (spec/30_encoding.md R95). -/

namespace Sys2Proof.Laws.EncodeSelectsRow

/-- The word of `i` is selected by the row of `i`. -/
def Statement (i : Instr) : Prop := encode i &&& i.row.mask = i.row.pattern

theorem lui (rd : Reg) (imm20 : BitVec 20) : Statement (.lui rd imm20) := by
  simp only [Statement, Instr.row]
  refine (mask_opcode (by decide) _).mpr ?_
  simp [encode]

theorem auipc (rd : Reg) (imm20 : BitVec 20) : Statement (.auipc rd imm20) := by
  simp only [Statement, Instr.row]
  refine (mask_opcode (by decide) _).mpr ?_
  simp [encode]

theorem jal (rd : Reg) (offset : BitVec 21) : Statement (.jal rd offset) := by
  simp only [Statement, Instr.row]
  refine (mask_opcode (by decide) _).mpr ?_
  simp [encode]

theorem beq (rs1 rs2 : Reg) (offset : BitVec 13) : Statement (.beq rs1 rs2 offset) := by
  simp only [Statement, Instr.row]
  refine (mask_opcode_funct3 (by decide) _).mpr ?_
  simp [encode]

theorem bne (rs1 rs2 : Reg) (offset : BitVec 13) : Statement (.bne rs1 rs2 offset) := by
  simp only [Statement, Instr.row]
  refine (mask_opcode_funct3 (by decide) _).mpr ?_
  simp [encode]

theorem blt (rs1 rs2 : Reg) (offset : BitVec 13) : Statement (.blt rs1 rs2 offset) := by
  simp only [Statement, Instr.row]
  refine (mask_opcode_funct3 (by decide) _).mpr ?_
  simp [encode]

theorem bge (rs1 rs2 : Reg) (offset : BitVec 13) : Statement (.bge rs1 rs2 offset) := by
  simp only [Statement, Instr.row]
  refine (mask_opcode_funct3 (by decide) _).mpr ?_
  simp [encode]

theorem bltu (rs1 rs2 : Reg) (offset : BitVec 13) : Statement (.bltu rs1 rs2 offset) := by
  simp only [Statement, Instr.row]
  refine (mask_opcode_funct3 (by decide) _).mpr ?_
  simp [encode]

theorem bgeu (rs1 rs2 : Reg) (offset : BitVec 13) : Statement (.bgeu rs1 rs2 offset) := by
  simp only [Statement, Instr.row]
  refine (mask_opcode_funct3 (by decide) _).mpr ?_
  simp [encode]

theorem lb (rd rs1 : Reg) (imm : BitVec 12) : Statement (.lb rd rs1 imm) := by
  simp only [Statement, Instr.row]
  refine (mask_opcode_funct3 (by decide) _).mpr ?_
  simp [encode]

theorem lh (rd rs1 : Reg) (imm : BitVec 12) : Statement (.lh rd rs1 imm) := by
  simp only [Statement, Instr.row]
  refine (mask_opcode_funct3 (by decide) _).mpr ?_
  simp [encode]

theorem lw (rd rs1 : Reg) (imm : BitVec 12) : Statement (.lw rd rs1 imm) := by
  simp only [Statement, Instr.row]
  refine (mask_opcode_funct3 (by decide) _).mpr ?_
  simp [encode]

theorem lbu (rd rs1 : Reg) (imm : BitVec 12) : Statement (.lbu rd rs1 imm) := by
  simp only [Statement, Instr.row]
  refine (mask_opcode_funct3 (by decide) _).mpr ?_
  simp [encode]

theorem lhu (rd rs1 : Reg) (imm : BitVec 12) : Statement (.lhu rd rs1 imm) := by
  simp only [Statement, Instr.row]
  refine (mask_opcode_funct3 (by decide) _).mpr ?_
  simp [encode]

theorem addi (rd rs1 : Reg) (imm : BitVec 12) : Statement (.addi rd rs1 imm) := by
  simp only [Statement, Instr.row]
  refine (mask_opcode_funct3 (by decide) _).mpr ?_
  simp [encode]

theorem slti (rd rs1 : Reg) (imm : BitVec 12) : Statement (.slti rd rs1 imm) := by
  simp only [Statement, Instr.row]
  refine (mask_opcode_funct3 (by decide) _).mpr ?_
  simp [encode]

theorem sltiu (rd rs1 : Reg) (imm : BitVec 12) : Statement (.sltiu rd rs1 imm) := by
  simp only [Statement, Instr.row]
  refine (mask_opcode_funct3 (by decide) _).mpr ?_
  simp [encode]

theorem xori (rd rs1 : Reg) (imm : BitVec 12) : Statement (.xori rd rs1 imm) := by
  simp only [Statement, Instr.row]
  refine (mask_opcode_funct3 (by decide) _).mpr ?_
  simp [encode]

theorem ori (rd rs1 : Reg) (imm : BitVec 12) : Statement (.ori rd rs1 imm) := by
  simp only [Statement, Instr.row]
  refine (mask_opcode_funct3 (by decide) _).mpr ?_
  simp [encode]

theorem andi (rd rs1 : Reg) (imm : BitVec 12) : Statement (.andi rd rs1 imm) := by
  simp only [Statement, Instr.row]
  refine (mask_opcode_funct3 (by decide) _).mpr ?_
  simp [encode]

theorem slli (rd rs1 : Reg) (shamt : BitVec 5) : Statement (.slli rd rs1 shamt) := by
  simp only [Statement, Instr.row]
  refine (mask_opcode_funct3 (by decide) _).mpr ?_
  simp [encode]

theorem srli (rd rs1 : Reg) (shamt : BitVec 5) : Statement (.srli rd rs1 shamt) := by
  simp only [Statement, Instr.row]
  refine (mask_shift (by decide) _).mpr ?_
  simp [encode]

theorem srai (rd rs1 : Reg) (shamt : BitVec 5) : Statement (.srai rd rs1 shamt) := by
  simp only [Statement, Instr.row]
  refine (mask_shift (by decide) _).mpr ?_
  simp [encode]

theorem jalr (rd rs1 : Reg) (imm : BitVec 12) : Statement (.jalr rd rs1 imm) := by
  simp only [Statement, Instr.row]
  refine (mask_opcode (by decide) _).mpr ?_
  simp [encode]

theorem sb (rs1 rs2 : Reg) (imm : BitVec 12) : Statement (.sb rs1 rs2 imm) := by
  simp only [Statement, Instr.row]
  refine (mask_opcode_funct3 (by decide) _).mpr ?_
  simp [encode]

theorem sh (rs1 rs2 : Reg) (imm : BitVec 12) : Statement (.sh rs1 rs2 imm) := by
  simp only [Statement, Instr.row]
  refine (mask_opcode_funct3 (by decide) _).mpr ?_
  simp [encode]

theorem sw (rs1 rs2 : Reg) (imm : BitVec 12) : Statement (.sw rs1 rs2 imm) := by
  simp only [Statement, Instr.row]
  refine (mask_opcode_funct3 (by decide) _).mpr ?_
  simp [encode]

theorem add (rd rs1 rs2 : Reg) : Statement (.add rd rs1 rs2) := by
  simp only [Statement, Instr.row]
  refine (mask_register (by decide) _).mpr ?_
  simp [encode]

theorem sub (rd rs1 rs2 : Reg) : Statement (.sub rd rs1 rs2) := by
  simp only [Statement, Instr.row]
  refine (mask_register (by decide) _).mpr ?_
  simp [encode]

theorem sll (rd rs1 rs2 : Reg) : Statement (.sll rd rs1 rs2) := by
  simp only [Statement, Instr.row]
  refine (mask_register (by decide) _).mpr ?_
  simp [encode]

theorem slt (rd rs1 rs2 : Reg) : Statement (.slt rd rs1 rs2) := by
  simp only [Statement, Instr.row]
  refine (mask_register (by decide) _).mpr ?_
  simp [encode]

theorem sltu (rd rs1 rs2 : Reg) : Statement (.sltu rd rs1 rs2) := by
  simp only [Statement, Instr.row]
  refine (mask_register (by decide) _).mpr ?_
  simp [encode]

theorem xor (rd rs1 rs2 : Reg) : Statement (.xor rd rs1 rs2) := by
  simp only [Statement, Instr.row]
  refine (mask_register (by decide) _).mpr ?_
  simp [encode]

theorem srl (rd rs1 rs2 : Reg) : Statement (.srl rd rs1 rs2) := by
  simp only [Statement, Instr.row]
  refine (mask_register (by decide) _).mpr ?_
  simp [encode]

theorem sra (rd rs1 rs2 : Reg) : Statement (.sra rd rs1 rs2) := by
  simp only [Statement, Instr.row]
  refine (mask_register (by decide) _).mpr ?_
  simp [encode]

theorem or (rd rs1 rs2 : Reg) : Statement (.or rd rs1 rs2) := by
  simp only [Statement, Instr.row]
  refine (mask_register (by decide) _).mpr ?_
  simp [encode]

theorem and (rd rs1 rs2 : Reg) : Statement (.and rd rs1 rs2) := by
  simp only [Statement, Instr.row]
  refine (mask_register (by decide) _).mpr ?_
  simp [encode]

end Sys2Proof.Laws.EncodeSelectsRow
end

