-- ==== Sys2Proof/Tests/Slice0.lean ====
section
/-! SUPPORT. The model's own tests, each a named theorem closed by decide. Expected values are those of
spec/95_test_vectors.md, named by row (T, E, M) where one has them, else worked out by hand from the rule cited; the binary
words are written out field by field from the formats of spec/30_encoding.md. At the end: for each obligation that has
hypotheses, inputs that meet them all. -/

open Sys2Proof Sys2Proof.Machine Sys2Proof.Claims

namespace Sys2Proof.Tests

/-! ### Well-formedness (R89, R90): an odd offset is refused -/

theorem test_wellFormed_jal : (Instr.jal 1 9).wellFormed = false ∧ (Instr.jal 1 8).wellFormed = true := by decide
theorem test_wellFormed_beq : (Instr.beq 1 2 9).wellFormed = false ∧ (Instr.beq 1 2 8).wellFormed = true := by decide
theorem test_wellFormed_bne : (Instr.bne 1 2 9).wellFormed = false ∧ (Instr.bne 1 2 8).wellFormed = true := by decide
theorem test_wellFormed_blt : (Instr.blt 1 2 9).wellFormed = false ∧ (Instr.blt 1 2 8).wellFormed = true := by decide
theorem test_wellFormed_bge : (Instr.bge 1 2 9).wellFormed = false ∧ (Instr.bge 1 2 8).wellFormed = true := by decide
theorem test_wellFormed_bltu : (Instr.bltu 1 2 9).wellFormed = false ∧ (Instr.bltu 1 2 8).wellFormed = true := by decide
theorem test_wellFormed_bgeu : (Instr.bgeu 1 2 9).wellFormed = false ∧ (Instr.bgeu 1 2 8).wellFormed = true := by decide

/-! ### Decoding: one word for each instruction, its fields written out in binary, from the left insn[31] -/

theorem test_decode_lui : decode 0b10101011110011011110_10110_0110111 = .ok (.lui 22 0xABCDE) := by decide
theorem test_decode_auipc : decode 0b01111011110011011110_10110_0010111 = .ok (.auipc 22 0x7BCDE) := by decide
theorem test_decode_jal : decode 0b1_1001010010_1_10100101_10110_1101111 = .ok (.jal 22 (BitVec.ofInt 21 (-0x5A35C))) := by decide
theorem test_decode_beq : decode 0b1_000101_11001_01101_000_0011_1_1100011 = .ok (.beq 13 25 (BitVec.ofInt 13 (-1882))) := by decide
theorem test_decode_bne : decode 0b0_001010_11001_01101_001_1110_1_1100011 = .ok (.bne 13 25 (BitVec.ofInt 13 (2396))) := by decide
theorem test_decode_blt : decode 0b1_100110_11001_01101_100_0101_0_1100011 = .ok (.blt 13 25 (BitVec.ofInt 13 (-2870))) := by decide
theorem test_decode_bge : decode 0b0_110011_11001_01101_101_0101_0_1100011 = .ok (.bge 13 25 (BitVec.ofInt 13 (1642))) := by decide
theorem test_decode_bltu : decode 0b1_111111_11001_01101_110_1111_1_1100011 = .ok (.bltu 13 25 (BitVec.ofInt 13 (-2))) := by decide
theorem test_decode_bgeu : decode 0b0_000000_11001_01101_111_1001_1_1100011 = .ok (.bgeu 13 25 (BitVec.ofInt 13 (2066))) := by decide
theorem test_decode_lb : decode 0b110100111011_01101_000_10110_0000011 = .ok (.lb 22 13 (BitVec.ofInt 12 (-709))) := by decide
theorem test_decode_lh : decode 0b010110100111_01101_001_10110_0000011 = .ok (.lh 22 13 (BitVec.ofInt 12 (1447))) := by decide
theorem test_decode_lw : decode 0b100000000001_01101_010_10110_0000011 = .ok (.lw 22 13 (BitVec.ofInt 12 (-2047))) := by decide
theorem test_decode_lbu : decode 0b000100100011_01101_100_10110_0000011 = .ok (.lbu 22 13 (BitVec.ofInt 12 (291))) := by decide
theorem test_decode_lhu : decode 0b101110101010_01101_101_10110_0000011 = .ok (.lhu 22 13 (BitVec.ofInt 12 (-1110))) := by decide
theorem test_decode_addi : decode 0b110011101011_01101_000_10110_0010011 = .ok (.addi 22 13 (BitVec.ofInt 12 (-789))) := by decide
theorem test_decode_slti : decode 0b001010101001_01101_010_10110_0010011 = .ok (.slti 22 13 (BitVec.ofInt 12 (681))) := by decide
theorem test_decode_sltiu : decode 0b100101001101_01101_011_10110_0010011 = .ok (.sltiu 22 13 (BitVec.ofInt 12 (-1715))) := by decide
theorem test_decode_xori : decode 0b011100110101_01101_100_10110_0010011 = .ok (.xori 22 13 (BitVec.ofInt 12 (1845))) := by decide
theorem test_decode_ori : decode 0b111100001111_01101_110_10110_0010011 = .ok (.ori 22 13 (BitVec.ofInt 12 (-241))) := by decide
theorem test_decode_andi : decode 0b010011010010_01101_111_10110_0010011 = .ok (.andi 22 13 (BitVec.ofInt 12 (1234))) := by decide
theorem test_decode_slli : decode 0b0000000_10011_01101_001_10110_0010011 = .ok (.slli 22 13 19) := by decide
theorem test_decode_srli : decode 0b0000000_10011_01101_101_10110_0010011 = .ok (.srli 22 13 19) := by decide
theorem test_decode_srai : decode 0b0100000_10011_01101_101_10110_0010011 = .ok (.srai 22 13 19) := by decide
theorem test_decode_jalr : decode 0b110100001101_01101_000_10110_1100111 = .ok (.jalr 22 13 (BitVec.ofInt 12 (-0x2F3))) := by decide
theorem test_decode_sb : decode 0b1101001_11001_01101_000_11011_0100011 = .ok (.sb 13 25 (BitVec.ofInt 12 (-709))) := by decide
theorem test_decode_sh : decode 0b0101101_11001_01101_001_00111_0100011 = .ok (.sh 13 25 (BitVec.ofInt 12 (1447))) := by decide
theorem test_decode_sw : decode 0b1000000_11001_01101_010_11101_0100011 = .ok (.sw 13 25 (BitVec.ofInt 12 (-2019))) := by decide
theorem test_decode_add : decode 0b0000000_11001_01101_000_10110_0110011 = .ok (.add 22 13 25) := by decide
theorem test_decode_sub : decode 0b0100000_11001_01101_000_10110_0110011 = .ok (.sub 22 13 25) := by decide
theorem test_decode_sll : decode 0b0000000_11001_01101_001_10110_0110011 = .ok (.sll 22 13 25) := by decide
theorem test_decode_slt : decode 0b0000000_11001_01101_010_10110_0110011 = .ok (.slt 22 13 25) := by decide
theorem test_decode_sltu : decode 0b0000000_11001_01101_011_10110_0110011 = .ok (.sltu 22 13 25) := by decide
theorem test_decode_xor : decode 0b0000000_11001_01101_100_10110_0110011 = .ok (.xor 22 13 25) := by decide
theorem test_decode_srl : decode 0b0000000_11001_01101_101_10110_0110011 = .ok (.srl 22 13 25) := by decide
theorem test_decode_sra : decode 0b0100000_11001_01101_101_10110_0110011 = .ok (.sra 22 13 25) := by decide
theorem test_decode_or : decode 0b0000000_11001_01101_110_10110_0110011 = .ok (.or 22 13 25) := by decide
theorem test_decode_and : decode 0b0000000_11001_01101_111_10110_0110011 = .ok (.and 22 13 25) := by decide

/-- The bits R96 leaves uninspected (T91, T92, T100, T101, T109, T110). -/
theorem test_decode_uninspected :
    decode 0x40109293 = .ok (.slli 5 1 1) ∧ decode 0xFE109293 = .ok (.slli 5 1 1) ∧
    decode 0x8010D293 = .ok (.srli 5 1 1) ∧ decode 0xFE10D293 = .ok (.srai 5 1 1) ∧
    decode 0x000150E7 = .ok (.jalr 1 2 0) ∧ decode 0x000170E7 = .ok (.jalr 1 2 0) := by decide

/-- Words no handler matches, by the case of R97 they fall under (T42, T43, T62 to T64, T125, T126, T162 to T166,
T176 to T180). -/
theorem test_decode_unmatched :
    decode 0x0020A863 = .error .branchFunct3 ∧ decode 0x0020B863 = .error .branchFunct3 ∧
    decode 0x0000B283 = .error .loadFunct3 ∧ decode 0x0000E283 = .error .loadFunct3 ∧
    decode 0x0000F283 = .error .loadFunct3 ∧ decode 0x0020B023 = .error .storeFunct3 ∧
    decode 0x0020F023 = .error .storeFunct3 ∧ decode 0x022082B3 = .error .registerFunct ∧
    decode 0x402092B3 = .error .registerFunct ∧ decode 0x4020F2B3 = .error .registerFunct ∧
    decode 0x802082B3 = .error .registerFunct ∧ decode 0x422082B3 = .error .registerFunct ∧
    decode 0x00000001 = .error .opcode ∧ decode 0x0000000B = .error .opcode ∧ decode 0x0000A287 = .error .opcode ∧
    decode 0x0020A2AF = .error .opcode ∧ decode 0x002082BB = .error .opcode := by decide

/-- Any bytes: the first four make the word, least significant first, the rest is left (R58, R100); fewer than four make
none. -/
theorem test_decodeBytes :
    decodeBytes [0x93, 0x00, 0xB0, 0xFF, 0xAA] = .ok (.addi 1 0 0xFFB, [0xAA]) ∧
    decodeBytes [0x93, 0x00, 0xB0] = .error .tooShort ∧ decodeBytes [] = .error .tooShort := by decide

theorem test_decodeTableWord :
    decodeTableWord 32 0xFFB00093 = some (.addi 1 0 0xFFB) ∧ decodeTableWord 32 0x00000033 = some (.add 0 0 0) ∧
    decodeTableWord 32 0 = none := by decide

/-- The immediates of M2, M4, M10, M12, M18, M19, M23, M25. -/
theorem test_immediates :
    sextWord (insnOffsetJ 0xFF9FF0EF) = 0xFFFFFFF8 ∧ sextWord (insnOffsetJ 0x800000EF) = 0xFFF00000 ∧
    sextWord (insnOffsetB 0xFE000CE3) = 0xFFFFFFF8 ∧ sextWord (insnOffsetB 0x80000063) = 0xFFFFF000 ∧
    sextWord (insnImmI 0x7FF00093) = 0x000007FF ∧ sextWord (insnImmI 0x80000093) = 0xFFFFF800 ∧
    sextWord (insnImmS 0xFE202F23) = 0xFFFFFFFE ∧ sextWord (insnImmS 0x80208023) = 0xFFFFF800 := by decide

/-- E1, E10, E14, E17, E19, E20. -/
theorem test_extractor :
    extractBits 0xFFFFFFFF (.int 0) (.int 31) = .ok 0xFFFFFFFF ∧ extractBits 0x80000000 (.int 31) (.int 31) = .ok 1 ∧
    extractBits 0xFFFFFFFF (.int 1) (.int 31) = .ok 0x7FFFFFFF ∧ extractBits 0x4020D2B3 (.int 25) (.int 31) = .ok 0x20 ∧
    extractBits 0xDEADBEEF (.int 8) (.int 15) = .ok 0xBE ∧ extractBits 0xDEADBEEF (.int 16) (.int 31) = .ok 0xDEAD := by
  decide

/-- E21 to E29. -/
theorem test_extractor_errors :
    extractBits 0x12345678 (.int 5) (.int 3) = .error .lowGtHigh ∧
    extractBits 0x12345678 (.int 31) (.int 0) = .error .lowGtHigh ∧
    extractBits 0x12345678 (.int 0) (.int 32) = .error .outOfRange ∧
    extractBits 0x12345678 (.int (-1)) (.int 3) = .error .outOfRange ∧
    extractBits 0x12345678 (.int 32) (.int 40) = .error .outOfRange ∧
    extractBits 0x12345678 (.int 33) (.int 2) = .error .outOfRange ∧
    extractBits 0x12345678 .nonInteger (.int 3) = .error .notInteger ∧
    extractBits 0x12345678 .nonInteger (.int 40) = .error .notInteger ∧
    extractBitsPorts 0x12345678 5 3 = .error .lowGtHigh := by decide

/-! ### Steps -/

/-- A state right after reset but for the pc, the parameters, the registers and memory named, with the word `w` where
the next fetch reads. -/
def startWith (params : Params) (pc : Word) (regs : List (Reg × Word)) (image : List (Word × Byte)) (w : Nat) : State :=
  let s : State := { State.reset with pc := pc, params := params }
  ((regs.foldl (fun s e => s.setX e.1 e.2) s).withFetchWord 32 w).loadImage image

/-- The same with the default parameters. -/
def start (pc : Word) (regs : List (Reg × Word)) (image : List (Word × Byte)) (w : Nat) : State :=
  startWith Params.default pc regs image w

/-- What `look` sees of the next state. -/
def after {α : Type} (s : State) (look : State → α) : Option α :=
  match step s with
  | .next t => some (look t)
  | _ => none

/-- Whether a step answers a next state. -/
def goesOn (s : State) : Bool := (after s fun _ => ()).isSome

/-- T1. -/
theorem test_lui_1 :
    after (start 0x00000100 [] [] 0x123452B7) (fun t => (t.pc, t.x 5)) =
      some (0x00000104, 0x12345000) := by
  decide
/-- T5. -/
theorem test_lui_2 :
    after (start 0x00000100 [] [] 0x12345037) (fun t => (t.pc, t.x 0)) =
      some (0x00000104, 0) := by
  decide
/-- T7. -/
theorem test_auipc_1 :
    after (startWith ⟨MemSize.default, .rv32i, .nop⟩ 0x00000100 [] [] 0x12345297) (fun t => (t.pc, t.x 5)) =
      some (0x00000104, 0x12345100) := by
  decide
/-- T8. -/
theorem test_auipc_2 :
    after (start 0x00000100 [] [] 0xFFFFF297) (fun t => (t.pc, t.x 5)) =
      some (0x00000104, 0x001000FF) := by
  decide
/-- T14. -/
theorem test_jal_1 :
    after (start 0x00000100 [] [] 0xFF9FF0EF) (fun t => (t.pc, t.x 1)) =
      some (0x000000F8, 0x00000104) := by
  decide
/-- T23. -/
theorem test_jal_2 :
    after (start 0xFFFFFFFC [(1, 0x00000077)] [] 0x008000EF) (fun t => (t.pc, t.x 1)) =
      some (0x00000004, 0x00000000) := by
  decide
/-- T24, pair 0. -/
theorem test_beq_1 :
    after (start 0x00000100 [(1, 0x00000007), (2, 0x00000007)] [] 0x00208863) (fun t => t.pc) =
      some 0x00000110 := by
  decide
/-- T35. -/
theorem test_beq_2 :
    after (start 0x00000100 [] [] 0x000000E3) (fun t => (t.pc, t.x 0)) =
      some (0x00000900, 0) := by
  decide
/-- T31. -/
theorem test_bne_1 :
    after (start 0x00000100 [(1, 0x00000001)] [] 0xFE009CE3) (fun t => (t.pc, t.x 0)) =
      some (0x000000F8, 0) := by
  decide
/-- T32. -/
theorem test_bne_2 :
    after (start 0x00000100 [(1, 0x00000000)] [] 0xFE009CE3) (fun t => (t.pc, t.x 0)) =
      some (0x00000104, 0) := by
  decide
/-- T26, pair 3. -/
theorem test_blt_1 :
    after (start 0x00000100 [(1, 0xFFFFFFFF), (2, 0x00000001)] [] 0x0020C863) (fun t => t.pc) =
      some 0x00000110 := by
  decide
/-- T40. -/
theorem test_blt_2 :
    after (start 0x00000100 [(1, 0x80000000)] [] 0x0010C863) (fun t => (t.pc, t.x 0)) =
      some (0x00000104, 0) := by
  decide
/-- T27, pair 4. -/
theorem test_bge_1 :
    after (start 0x00000100 [(1, 0x00000001), (2, 0xFFFFFFFF)] [] 0x0020D863) (fun t => t.pc) =
      some 0x00000110 := by
  decide
/-- T27, pair 0. -/
theorem test_bge_2 :
    after (start 0x00000100 [(1, 0x00000007), (2, 0x00000007)] [] 0x0020D863) (fun t => t.pc) =
      some 0x00000110 := by
  decide
/-- T28, pair 4. -/
theorem test_bltu_1 :
    after (start 0x00000100 [(1, 0x00000001), (2, 0xFFFFFFFF)] [] 0x0020E863) (fun t => t.pc) =
      some 0x00000110 := by
  decide
/-- T28, pair 5. -/
theorem test_bltu_2 :
    after (start 0x00000100 [(1, 0x80000000), (2, 0x7FFFFFFF)] [] 0x0020E863) (fun t => t.pc) =
      some 0x00000104 := by
  decide
/-- T29, pair 3. -/
theorem test_bgeu_1 :
    after (start 0x00000100 [(1, 0xFFFFFFFF), (2, 0x00000001)] [] 0x0020F863) (fun t => t.pc) =
      some 0x00000110 := by
  decide
/-- T29, pair 4. -/
theorem test_bgeu_2 :
    after (start 0x00000100 [(1, 0x00000001), (2, 0xFFFFFFFF)] [] 0x0020F863) (fun t => t.pc) =
      some 0x00000104 := by
  decide
/-- T44. -/
theorem test_lb_1 :
    after (start 0x00000100 [(1, 0x00000200)] [(0x0200, 0xFF), (0x0201, 0x80), (0x0202, 0x7F), (0x0203, 0x01)] 0x00008283) (fun t => (t.pc, t.x 5)) =
      some (0x00000104, 0xFFFFFFFF) := by
  decide
/-- T49. -/
theorem test_lb_2 :
    after (start 0x00000100 [(1, 0x00000200)] [(0x0200, 0xFF), (0x0201, 0x80), (0x0202, 0x7F), (0x0203, 0x01)] 0x00208283) (fun t => (t.pc, t.x 5)) =
      some (0x00000104, 0x0000007F) := by
  decide
/-- T46. -/
theorem test_lh_1 :
    after (start 0x00000100 [(1, 0x00000200)] [(0x0200, 0xFF), (0x0201, 0x80), (0x0202, 0x7F), (0x0203, 0x01)] 0x00009283) (fun t => (t.pc, t.x 5)) =
      some (0x00000104, 0xFFFF80FF) := by
  decide
/-- T51. -/
theorem test_lh_2 :
    after (start 0x00000100 [(1, 0x00000202)] [(0x0200, 0xFF), (0x0201, 0x80), (0x0202, 0x7F), (0x0203, 0x01)] 0xFFF09283) (fun t => (t.pc, t.x 5)) =
      some (0x00000104, 0x00007F80) := by
  decide
/-- T54. -/
theorem test_lw_1 :
    after (start 0x00000100 [] [(0xFFFE, 0xAA), (0xFFFF, 0xBB), (0x0000, 0xCC), (0x0001, 0xDD)] 0xFFE02283) (fun t => (t.pc, t.x 5)) =
      some (0x00000104, 0xDDCCBBAA) := by
  decide
/-- T57. -/
theorem test_lw_2 :
    after (start 0x00000100 [(1, 0x00000200)] [(0x0200, 0xFF), (0x0201, 0x80), (0x0202, 0x7F), (0x0203, 0x01)] 0x0000A083) (fun t => (t.pc, t.x 1)) =
      some (0x00000104, 0x017F80FF) := by
  decide
/-- T45. -/
theorem test_lbu_1 :
    after (start 0x00000100 [(1, 0x00000200)] [(0x0200, 0xFF), (0x0201, 0x80), (0x0202, 0x7F), (0x0203, 0x01)] 0x0000C283) (fun t => (t.pc, t.x 5)) =
      some (0x00000104, 0x000000FF) := by
  decide
/-- T59. -/
theorem test_lbu_2 :
    after (start 0x00000100 [(1, 0x00001000)] [(0x0800, 0x9C)] 0x8000C283) (fun t => (t.pc, t.x 5)) =
      some (0x00000104, 0x0000009C) := by
  decide
/-- T47. -/
theorem test_lhu_1 :
    after (start 0x00000100 [(1, 0x00000200)] [(0x0200, 0xFF), (0x0201, 0x80), (0x0202, 0x7F), (0x0203, 0x01)] 0x0000D283) (fun t => (t.pc, t.x 5)) =
      some (0x00000104, 0x000080FF) := by
  decide
/-- T60. -/
theorem test_lhu_2 :
    after (start 0x00000100 [(1, 0x0000FFFF)] [(0xFFFF, 0x34), (0x0000, 0x12)] 0x0000D283) (fun t => (t.pc, t.x 5)) =
      some (0x00000104, 0x00001234) := by
  decide
/-- T67. -/
theorem test_addi_1 :
    after (start 0x00000100 [(1, 0x7FFFFFFF)] [] 0x7FF08293) (fun t => (t.pc, t.x 5)) =
      some (0x00000104, 0x800007FE) := by
  decide
/-- T70. -/
theorem test_addi_2 :
    after (start 0x00000100 [] [] 0x06300013) (fun t => (t.pc, t.x 0)) =
      some (0x00000104, 0) := by
  decide
/-- T72. -/
theorem test_slti_1 :
    after (start 0x00000100 [(1, 0xFFFFFFFE)] [] 0xFFF0A293) (fun t => (t.pc, t.x 5)) =
      some (0x00000104, 0x00000001) := by
  decide
/-- T74. -/
theorem test_slti_2 :
    after (start 0x00000100 [(1, 0x80000000)] [] 0x0000A293) (fun t => (t.pc, t.x 5)) =
      some (0x00000104, 0x00000001) := by
  decide
/-- T77. -/
theorem test_sltiu_1 :
    after (start 0x00000100 [(1, 0x00000005)] [] 0xFFF0B293) (fun t => (t.pc, t.x 5)) =
      some (0x00000104, 0x00000001) := by
  decide
/-- T80. -/
theorem test_sltiu_2 :
    after (start 0x00000100 [(1, 0x00000001), (5, 0x00000009)] [] 0x0010B293) (fun t => (t.pc, t.x 5)) =
      some (0x00000104, 0x00000000) := by
  decide
/-- T82. -/
theorem test_xori_1 :
    after (start 0x00000100 [(1, 0x12345678)] [] 0xFFF0C293) (fun t => (t.pc, t.x 5)) =
      some (0x00000104, 0xEDCBA987) := by
  decide
/-- T83. -/
theorem test_xori_2 :
    after (start 0x00000100 [(1, 0x000000FF)] [] 0x0F00C293) (fun t => (t.pc, t.x 5)) =
      some (0x00000104, 0x0000000F) := by
  decide
/-- T84. -/
theorem test_ori_1 :
    after (start 0x00000100 [(1, 0x00000001)] [] 0x8000E293) (fun t => (t.pc, t.x 5)) =
      some (0x00000104, 0xFFFFF801) := by
  decide
/-- T85. -/
theorem test_ori_2 :
    after (start 0x00000100 [(1, 0x0000000F)] [] 0x0F00E293) (fun t => (t.pc, t.x 5)) =
      some (0x00000104, 0x000000FF) := by
  decide
/-- T86. -/
theorem test_andi_1 :
    after (start 0x00000100 [(1, 0x12345678)] [] 0xFF00F293) (fun t => (t.pc, t.x 5)) =
      some (0x00000104, 0x12345670) := by
  decide
/-- T87. -/
theorem test_andi_2 :
    after (start 0x00000100 [(1, 0x12345678)] [] 0x0FF0F293) (fun t => (t.pc, t.x 5)) =
      some (0x00000104, 0x00000078) := by
  decide
/-- T88. -/
theorem test_slli_1 :
    after (start 0x00000100 [(1, 0x80000001)] [] 0x00109293) (fun t => (t.pc, t.x 5)) =
      some (0x00000104, 0x00000002) := by
  decide
/-- T92. -/
theorem test_slli_2 :
    after (start 0x00000100 [(1, 0x80000001)] [] 0xFE109293) (fun t => (t.pc, t.x 5)) =
      some (0x00000104, 0x00000002) := by
  decide
/-- T93. -/
theorem test_srli_1 :
    after (start 0x00000100 [(1, 0x80000001)] [] 0x0010D293) (fun t => (t.pc, t.x 5)) =
      some (0x00000104, 0x40000000) := by
  decide
/-- T94. -/
theorem test_srli_2 :
    after (start 0x00000100 [(1, 0x80000000)] [] 0x01F0D293) (fun t => (t.pc, t.x 5)) =
      some (0x00000104, 0x00000001) := by
  decide
/-- T96. -/
theorem test_srai_1 :
    after (start 0x00000100 [(1, 0x80000001)] [] 0x4010D293) (fun t => (t.pc, t.x 5)) =
      some (0x00000104, 0xC0000000) := by
  decide
/-- T101. -/
theorem test_srai_2 :
    after (start 0x00000100 [(1, 0x80000001)] [] 0xFE10D293) (fun t => (t.pc, t.x 5)) =
      some (0x00000104, 0xC0000000) := by
  decide
/-- T104. -/
theorem test_jalr_1 :
    after (start 0x00000100 [(1, 0x00003000)] [] 0x008080E7) (fun t => (t.pc, t.x 1)) =
      some (0x00003008, 0x00000104) := by
  decide
/-- T107. -/
theorem test_jalr_2 :
    after (start 0x00000100 [(2, 0x00002003)] [] 0x003100E7) (fun t => (t.pc, t.x 1)) =
      some (0x00002006, 0x00000104) := by
  decide
/-- T118. -/
theorem test_sb_1 :
    after (start 0x00000100 [(1, 0x00001000), (2, 0x000001FF)] [] 0x80208023) (fun t => (t.pc, t.byteAt 0x0800, t.byteAt 0x0801)) =
      some (0x00000104, 0xFF, 0x00) := by
  decide
/-- T124. -/
theorem test_sb_2 :
    after (start 0x00000100 [(1, 0x00010064), (2, 0x0000005A)] [] 0x00208023) (fun t => (t.pc, t.byteAt 0x0064)) =
      some (0x00000104, 0x5A) := by
  decide
/-- T117. -/
theorem test_sh_1 :
    after (start 0x00000100 [(2, 0x0000AABB)] [] 0xFE201FA3) (fun t => (t.pc, t.byteAt 0xFFFF, t.byteAt 0x0000)) =
      some (0x00000104, 0xBB, 0xAA) := by
  decide
/-- T122. -/
theorem test_sh_2 :
    after (start 0x00000100 [(1, 0x00000300), (2, 0x12345678)] [(0x0302, 0xEE), (0x0303, 0xEE)] 0x00209023) (fun t => (t.pc, t.byteAt 0x0300, t.byteAt 0x0301, t.byteAt 0x0302, t.byteAt 0x0303, t.byteAt 0x0302)) =
      some (0x00000104, 0x78, 0x56, 0xEE, 0xEE, 0xEE) := by
  decide
/-- T116. -/
theorem test_sw_1 :
    after (start 0x00000100 [(2, 0x11223344)] [] 0xFE202F23) (fun t => (t.pc, t.byteAt 0xFFFE, t.byteAt 0xFFFF, t.byteAt 0x0000, t.byteAt 0x0001)) =
      some (0x00000104, 0x44, 0x33, 0x22, 0x11) := by
  decide
/-- T123. -/
theorem test_sw_2 :
    after (start 0x00000100 [(1, 0x00000100), (2, 0x00000013)] [] 0x0020A023) (fun t => (t.pc, t.byteAt 0x0100, t.byteAt 0x0101, t.byteAt 0x0102, t.byteAt 0x0103)) =
      some (0x00000104, 0x13, 0x00, 0x00, 0x00) := by
  decide
/-- T127. -/
theorem test_add_1 :
    after (start 0x00000100 [(1, 0xFFFFFFFF), (2, 0x00000001), (5, 0x00000009)] [] 0x002082B3) (fun t => (t.pc, t.x 5)) =
      some (0x00000104, 0x00000000) := by
  decide
/-- T131. -/
theorem test_add_2 :
    after (start 0x00000100 [(1, 0x00000003), (2, 0x00000004)] [] 0x00208033) (fun t => (t.pc, t.x 0)) =
      some (0x00000104, 0) := by
  decide
/-- T132. -/
theorem test_sub_1 :
    after (start 0x00000100 [(1, 0x00000000), (2, 0x00000001)] [] 0x402082B3) (fun t => (t.pc, t.x 5)) =
      some (0x00000104, 0xFFFFFFFF) := by
  decide
/-- T135. -/
theorem test_sub_2 :
    after (start 0x00000100 [(1, 0x00000003), (2, 0x00000005)] [] 0x402082B3) (fun t => (t.pc, t.x 5)) =
      some (0x00000104, 0xFFFFFFFE) := by
  decide
/-- T137. -/
theorem test_sll_1 :
    after (start 0x00000100 [(1, 0x80000001), (2, 0x00000021)] [] 0x002092B3) (fun t => (t.pc, t.x 5)) =
      some (0x00000104, 0x00000002) := by
  decide
/-- T141. -/
theorem test_sll_2 :
    after (start 0x00000100 [(1, 0x00000001), (2, 0xFFFFFFFF)] [] 0x002092B3) (fun t => (t.pc, t.x 5)) =
      some (0x00000104, 0x80000000) := by
  decide
/-- T143. -/
theorem test_slt_1 :
    after (start 0x00000100 [(1, 0x00000001), (2, 0xFFFFFFFF), (5, 0x00000009)] [] 0x0020A2B3) (fun t => (t.pc, t.x 5)) =
      some (0x00000104, 0x00000000) := by
  decide
/-- T144. -/
theorem test_slt_2 :
    after (start 0x00000100 [(1, 0x80000000), (2, 0x7FFFFFFF)] [] 0x0020A2B3) (fun t => (t.pc, t.x 5)) =
      some (0x00000104, 0x00000001) := by
  decide
/-- T146. -/
theorem test_sltu_1 :
    after (start 0x00000100 [(1, 0xFFFFFFFF), (2, 0x00000001), (5, 0x00000009)] [] 0x0020B2B3) (fun t => (t.pc, t.x 5)) =
      some (0x00000104, 0x00000000) := by
  decide
/-- T147. -/
theorem test_sltu_2 :
    after (start 0x00000100 [(1, 0x00000001), (2, 0xFFFFFFFF)] [] 0x0020B2B3) (fun t => (t.pc, t.x 5)) =
      some (0x00000104, 0x00000001) := by
  decide
/-- T150. -/
theorem test_xor_1 :
    after (start 0x00000100 [(1, 0xFF00FF00), (2, 0x0FF00FF0)] [] 0x0020C2B3) (fun t => (t.pc, t.x 5)) =
      some (0x00000104, 0xF0F0F0F0) := by
  decide
/-- T151. -/
theorem test_xor_2 :
    after (start 0x00000100 [(1, 0xFF00FF00), (5, 0x00000009)] [] 0x0010C2B3) (fun t => (t.pc, t.x 5)) =
      some (0x00000104, 0x00000000) := by
  decide
/-- T152. -/
theorem test_srl_1 :
    after (start 0x00000100 [(1, 0x80000001), (2, 0x00000021)] [] 0x0020D2B3) (fun t => (t.pc, t.x 5)) =
      some (0x00000104, 0x40000000) := by
  decide
/-- T154. -/
theorem test_srl_2 :
    after (start 0x00000100 [(1, 0x80000001), (2, 0x00000020)] [] 0x0020D2B3) (fun t => (t.pc, t.x 5)) =
      some (0x00000104, 0x80000001) := by
  decide
/-- T156. -/
theorem test_sra_1 :
    after (start 0x00000100 [(1, 0x80000001), (2, 0x00000021)] [] 0x4020D2B3) (fun t => (t.pc, t.x 5)) =
      some (0x00000104, 0xC0000000) := by
  decide
/-- T159. -/
theorem test_sra_2 :
    after (start 0x00000100 [(1, 0x7FFFFFFF), (2, 0x00000004)] [] 0x4020D2B3) (fun t => (t.pc, t.x 5)) =
      some (0x00000104, 0x07FFFFFF) := by
  decide
/-- T160. -/
theorem test_or :
    after (start 0x00000100 [(1, 0xFF00FF00), (2, 0x0FF00FF0)] [] 0x0020E2B3) (fun t => (t.pc, t.x 5)) =
      some (0x00000104, 0xFFF0FFF0) := by
  decide
/-- T161. -/
theorem test_and :
    after (start 0x00000100 [(1, 0xFF00FF00), (2, 0x0FF00FF0)] [] 0x0020F2B3) (fun t => (t.pc, t.x 5)) =
      some (0x00000104, 0x0F000F00) := by
  decide

/-! ### Unmatched words, fetch, reset, the host's ports -/

/-- T173: nothing but the pc changes. -/
theorem test_unmatched_nop :
    after (start 0x00000100 [(1, 0x11111111), (5, 0x55555555)] [] 0x340092F3) (fun t => (t.pc, t.x 1, t.x 5)) =
      some (0x00000104, 0x11111111, 0x55555555) := by
  decide
/-- T181. -/
theorem test_unmatched_pcWraps :
    after (start 0xFFFFFFFC [] [] 0x00000000) (fun t => (t.pc, t.x 0)) =
      some (0x00000000, 0) := by
  decide
/-- T183. -/
theorem test_fetch_acrossTheTop :
    after (start 0x0000FFFE [] [] 0x00100093) (fun t => (t.pc, t.x 1)) =
      some (0x00010002, 0x00000001) := by
  decide
/-- T186. -/
theorem test_fetch_oddPc :
    after (start 0x00000101 [] [] 0x00100093) (fun t => (t.pc, t.x 1)) =
      some (0x00000105, 0x00000001) := by
  decide
/-- P6 under the fault policy: ECALL raises IllegalInstruction(pc, insn). -/
theorem test_unmatched_fault :
    (match step (startWith ⟨MemSize.default, .unshifted, .fault⟩ 0x00001004 [] [] 0x00000073) with
      | .fault f => some f
      | _ => none) = some (.illegalInstruction 0x00001004 0x00000073) := by
  decide

/-- An instruction runs under the fault policy as under nop (R226). -/
theorem test_fault_policy_runs_instructions :
    after (startWith ⟨MemSize.default, .unshifted, .fault⟩ 0x00001004 [] [] 0x00A00093) (fun t => (t.pc, t.x 1)) =
      some (0x00001008, 10) := by
  decide

/-- The N = 256 vector at the end of section 2.9. -/
theorem test_lw_256 :
    after (startWith ⟨⟨8, by decide, by decide⟩, .unshifted, .nop⟩ 0x00000100 [(1, 0x000003FE)]
      [(0xFE, 0xAA), (0xFF, 0xBB)] 0x0000A283) (fun t => (t.pc, t.x 5)) = some (0x00000104, 0xA283BBAA) := by
  decide

/-- The admitted memory sizes (R54). -/
theorem test_memSize :
    (MemSize.ofBytes 65536).isSome ∧ (MemSize.ofBytes 4).isSome ∧ (MemSize.ofBytes 4294967296).isSome ∧
    (MemSize.ofBytes 2) = none ∧ (MemSize.ofBytes 8589934592) = none ∧ (MemSize.ofBytes 65535) = none ∧
    (MemSize.ofBytes 0) = none := by
  decide

/-- R40, R260 with the defaults of R7. -/
theorem test_reset :
    State.reset.pc = 0 ∧ State.reset.mem = [] ∧ State.reset.x 31 = 0 ∧ State.reset.memBytes = 65536 ∧
    State.reset.mem.wf = true := by
  decide

/-- R40, R262: the loader's last write to a byte stands, addresses alias modulo N, x0 is 0 whatever RESET_REGS holds. -/
theorem test_boot :
    let s := State.boot
      { Config.default with
        resetPc := 0x00001000, resetRegs := Vector.replicate 32 7, initMem := [(0x10064, 1), (0x64, 2), (0x20, 3)] }
    s.pc = 0x00001000 ∧ s.x 0 = 0 ∧ s.x 9 = 7 ∧ s.byteAt 0x64 = 2 ∧ s.mem = [(0x20, 3), (0x64, 2)] := by
  decide

/-- S10: write(0x10064, 0x15A) stores 5A at 0x0064. -/
theorem test_hostWrite : (State.reset.hostWrite 0x10064 0x15A).hostRead 0x0064 = 0x5A := by decide

/-- A write of the blank byte takes the entry out again: equal memories are equal lists. -/
theorem test_canonical :
    ((State.reset.hostWrite 0x64 5).hostWrite 0x10 6).mem = [(0x10, 6), (0x64, 5)] ∧
    (((State.reset.hostWrite 0x64 5).hostWrite 0x10 6).hostWrite 0x64 0).mem = [(0x10, 6)] := by
  decide

/-- P2: getRegisterValue of 0xFFFFFFFB is -5, of 0x000000FB is 251; refused outside 0..31 (R26). -/
theorem test_getRegisterValue :
    (State.reset.setX 2 0xFFFFFFFB).getRegisterValue 2 = .ok (-5) ∧
    (State.reset.setX 3 0x000000FB).getRegisterValue 3 = .ok 251 ∧
    State.reset.getRegisterValue 32 = .error (.registerIndexOutside 32) ∧
    State.reset.getRegisterValue (-1) = .error (.registerIndexOutside (-1)) := by
  decide

/-- step runs, as the first instruction after reset, the word withFetchWord places. -/
theorem test_withFetchWord :
    after (State.reset.withFetchWord 32 0xFFB00093) (fun t => (t.pc, t.x 1)) = some (4, 0xFFFFFFFB) := by
  decide


/-! ### Witnesses: inputs that meet the hypotheses of an obligation, at the boundary values of its clauses -/

theorem witness_DecodeOfEncodeIsTheInstruction :
    (Instr.jal 31 (BitVec.ofInt 21 (-2))).wellFormed = true ∧ (Instr.bgeu 31 0 0x0FFE).wellFormed = true ∧
    (Instr.sw 0 31 0xFFF).wellFormed = true := by decide

/-- The words of T92, T101 and T110: every uninspected bit set. -/
theorem witness_EncodeOfDecodeKeepsEveryInspectedBit :
    decode 0xFE109293 = .ok (.slli 5 1 1) ∧ decode 0xFE10D293 = .ok (.srai 5 1 1) ∧
    decode 0x000170E7 = .ok (.jalr 1 2 0) := by decide

theorem witness_DecodedInstructionsAreWellFormed :
    decode 0x7FFFF0EF = .ok (.jal 1 0x0FFFFE) ∧ decode 0x80000063 = .ok (.beq 0 0 0x1000) := by decide

/-- The all-zero and the all-ones word satisfy no row; the match of each row satisfies its row. -/
theorem witness_OpcodeMapSelectsTheInstruction :
    (∀ row ∈ opcodeTable, (0 : Word) &&& row.mask ≠ row.pattern) ∧
    (∀ row ∈ opcodeTable, (0xFFFFFFFF : Word) &&& row.mask ≠ row.pattern) ∧
    (∀ row ∈ opcodeTable, row.pattern &&& row.mask = row.pattern) := by decide

/-- Each row of R97 has words, at both ends of its funct range. -/
theorem witness_UnmatchedSetIsExactlyTheListedWords :
    opcodeOf 0x00000000 ∉ [0x37, 0x17, 0x6F, 0x63, 0x03, 0x13, 0x67, 0x23, 0x33] ∧
    (opcodeOf 0x0020A863 = 0x63 ∧ funct3Of 0x0020A863 = 2) ∧ (opcodeOf 0x0020B863 = 0x63 ∧ funct3Of 0x0020B863 = 3) ∧
    (opcodeOf 0x0000B283 = 0x03 ∧ funct3Of 0x0000B283 = 3) ∧ (opcodeOf 0x0000F283 = 0x03 ∧ funct3Of 0x0000F283 = 7) ∧
    (opcodeOf 0x0020B023 = 0x23 ∧ funct3Of 0x0020B023 = 3) ∧ (opcodeOf 0x0020F023 = 0x23 ∧ funct3Of 0x0020F023 = 7) ∧
    (opcodeOf 0x022082B3 = 0x33 ∧ funct7Of 0x022082B3 = 1) ∧
    (opcodeOf 0x402092B3 = 0x33 ∧ funct7Of 0x402092B3 = 0x20 ∧ funct3Of 0x402092B3 = 1) := by decide

/-- Both ends of each immediate (M3, M4, M11, M12, M18, M19, M24, M25). -/
theorem witness_ImmediatesHaveTheValuesOfTheirBits :
    decode 0x7FFFF0EF = .ok (.jal 1 0x0FFFFE) ∧ decode 0x800000EF = .ok (.jal 1 0x100000) ∧
    decode 0x7E000FE3 = .ok (.beq 0 0 0x0FFE) ∧ decode 0x80000063 = .ok (.beq 0 0 0x1000) ∧
    decode 0x7FF00093 = .ok (.addi 1 0 0x7FF) ∧ decode 0x80000093 = .ok (.addi 1 0 0x800) ∧
    decode 0x7E20AFA3 = .ok (.sw 1 2 0x7FF) ∧ decode 0x80208023 = .ok (.sb 1 2 0x800) := by decide

/-- The ends of the range: (0, 0), (0, 31), (31, 31). -/
theorem witness_ExtractorReturnsTheRangeUnsigned :
    ((0 : Int) ≤ 0 ∧ (0 : Int) ≤ 0 ∧ (0 : Int) ≤ 31) ∧ ((0 : Int) ≤ 0 ∧ (0 : Int) ≤ 31 ∧ (31 : Int) ≤ 31) ∧
    extractBits 0x80000001 (.int 0) (.int 0) = .ok 1 ∧ extractBits 0x80000001 (.int 31) (.int 31) = .ok 1 := by decide

/-- Each condition just outside its boundary: a non-integer, -1 and 32 as either index, 1 above 0 and 31 above 30. -/
theorem witness_ExtractorReportsTheFirstFailedCheck :
    extractBits 0 (.int 40) .nonInteger = .error .notInteger ∧ extractBits 0 (.int (-1)) (.int 0) = .error .outOfRange ∧
    extractBits 0 (.int 32) (.int 0) = .error .outOfRange ∧ extractBits 0 (.int 0) (.int (-1)) = .error .outOfRange ∧
    extractBits 0 (.int 0) (.int 32) = .error .outOfRange ∧ extractBits 0 (.int 1) (.int 0) = .error .lowGtHigh ∧
    extractBits 0 (.int 31) (.int 30) = .error .lowGtHigh := by decide

/-- low <= high at both ends of the range, and low one above high at both ends. -/
theorem witness_DecoderExtractionsNeverFail :
    (0 : BitVec 5).toNat ≤ (0 : BitVec 5).toNat ∧ (0 : BitVec 5).toNat ≤ (31 : BitVec 5).toNat ∧
    (31 : BitVec 5).toNat ≤ (31 : BitVec 5).toNat ∧ (0 : BitVec 5).toNat < (1 : BitVec 5).toNat ∧
    (30 : BitVec 5).toNat < (31 : BitVec 5).toNat := by decide

/-- The bytes of T65 at the pc, and across the top of memory (T183). -/
theorem witness_StepRunsTheDecodedInstruction :
    (∀ k, k < 4 → (start 0x00000100 [] [] 0xFFB00093).byteAt ((start 0x00000100 [] [] 0xFFB00093).pc + BitVec.ofNat 32 k) =
      (0xFFB00093 : Word).extractLsb' (8 * k) 8) ∧
    (∀ k, k < 4 → (start 0x0000FFFE [] [] 0x00100093).byteAt ((start 0x0000FFFE [] [] 0x00100093).pc + BitVec.ofNat 32 k) =
      (0x00100093 : Word).extractLsb' (8 * k) 8) ∧
    decode 0xFFB00093 = .ok (.addi 1 0 0xFFB) ∧ decode 0x00100093 = .ok (.addi 1 0 1) := by decide

/-- Two parameter values that differ in the policy alone. -/
def faulting : Params := ⟨MemSize.default, .unshifted, .fault⟩

theorem witness_UnmatchedWordOnlyAdvancesThePc :
    (start 0x00000100 [] [] 0x00000073).params.unmatchedPolicy = .nop ∧
    ∀ row ∈ opcodeTable, (start 0x00000100 [] [] 0x00000073).fetch &&& row.mask ≠ row.pattern := by decide

theorem witness_UnmatchedWordFaultsUnderFaultPolicy :
    (startWith faulting 0x00000100 [] [] 0x00000073).params.unmatchedPolicy = .fault ∧
    ∀ row ∈ opcodeTable, (startWith faulting 0x00000100 [] [] 0x00000073).fetch &&& row.mask ≠ row.pattern := by decide

theorem witness_UnmatchedWordActsAsNopInstruction :
    (start 0x00000100 [(1, 3)] [] 0x022082B3).params.unmatchedPolicy = .nop ∧
    decode (start 0x00000100 [(1, 3)] [] 0x022082B3).fetch = .error .registerFunct := by decide

/-- The same visible state, the slot of x0 apart. -/
def reslotted (s : State) : State := { s with regs := s.regs.set 0 7 }

theorem witness_StepIsTotalAndDeterminedByTheVisibleState :
    State.reset.params.unmatchedPolicy = .nop ∧
    (startWith faulting 0x00000100 [] [] 0x00000073).params.unmatchedPolicy = .fault ∧
    (let s := start 0x00000100 [(1, 3)] [] 0x00108093
     s.pc = (reslotted s).pc ∧ s.mem = (reslotted s).mem ∧ s.params = (reslotted s).params ∧
      (∀ r : Reg, s.x r = (reslotted s).x r) ∧ s ≠ reslotted s ∧ goesOn s = true) := by decide

theorem witness_RunsNeverStopUnderTheDocumentedPolicy : State.reset.params.unmatchedPolicy = .nop := by decide

theorem witness_JumpToSelfLeavesTheWholeState :
    (start 0x00000018 [(1, 3)] [] 0x0000006F).fetch = 0x0000006F := by decide

/-- A step that goes on for each clause: JAL, JALR, each branch, another instruction, an unmatched word. -/
theorem witness_PcGoesToNextWordOrTheJumpTarget :
    goesOn (start 0x00000100 [] [] 0xFF9FF0EF) = true ∧ goesOn (start 0x00000100 [(1, 0x3000)] [] 0x008080E7) = true ∧
    goesOn (start 0x00000100 [(1, 7), (2, 7)] [] 0x00208863) = true ∧
    goesOn (start 0x00000100 [(1, 6), (2, 7)] [] 0x00209863) = true ∧
    goesOn (start 0x00000100 [(1, 6), (2, 7)] [] 0x0020C863) = true ∧
    goesOn (start 0x00000100 [(1, 6), (2, 7)] [] 0x0020D863) = true ∧
    goesOn (start 0x00000100 [(1, 6), (2, 7)] [] 0x0020E863) = true ∧
    goesOn (start 0x00000100 [(1, 6), (2, 7)] [] 0x0020F863) = true ∧
    goesOn (start 0x00000100 [] [] 0xFFB00093) = true ∧ goesOn (start 0x00000100 [] [] 0) = true := by decide

/-- pc + 4 below 2^32, and reaching it: a plain instruction, an unmatched word, and each branch not taken. -/
theorem witness_SequentialPcAdvancesModuloMemorySize :
    fallsThrough (start 0xFFFFFFF8 [] [] 0x00000013) = true ∧ fallsThrough (start 0xFFFFFFFC [] [] 0x00000013) = true ∧
    fallsThrough (start 0xFFFFFFFC [] [] 0) = true ∧
    fallsThrough (start 0x00000100 [(1, 6), (2, 7)] [] 0x00208863) = true ∧
    fallsThrough (start 0x00000100 [(1, 7), (2, 7)] [] 0x00209863) = true ∧
    fallsThrough (start 0x00000100 [(1, 7), (2, 7)] [] 0x0020C863) = true ∧
    fallsThrough (start 0x00000100 [(1, 6), (2, 7)] [] 0x0020D863) = true ∧
    fallsThrough (start 0x00000100 [(1, 7), (2, 7)] [] 0x0020E863) = true ∧
    fallsThrough (start 0x00000100 [(1, 6), (2, 7)] [] 0x0020F863) = true := by decide

/-- The invariant as a Bool, to test it. -/
def invHolds (s : State) : Bool := s.mem.wf && s.mem.within s.memBytes && decide (s.regs[0] = 0)

theorem invHolds_iff (s : State) : invHolds s = true ↔ s.Inv := by
  simp [invHolds, State.Inv, and_assoc]

/-- Before a store that takes an entry out of memory. -/
theorem witness_StepKeepsTheMachineInvariant :
    (start 0x00000100 [(1, 0x300)] [(0x300, 0xAA)] 0x0000A023).Inv ∧
    goesOn (start 0x00000100 [(1, 0x300)] [(0x300, 0xAA)] 0x0000A023) = true :=
  ⟨(invHolds_iff _).mp (by decide), by decide⟩

theorem witness_StepKeepsThePcEven :
    (start 0x00000102 [(2, 0x2001)] [] 0x000100E7).PcEven ∧
    goesOn (start 0x00000102 [(2, 0x2001)] [] 0x000100E7) = true :=
  ⟨by unfold State.PcEven; decide, by decide⟩

theorem witness_BootHoldsTheConfiguredValues : (31 : Fin 32) ≠ 0 ∧ (1 : Fin 32) ≠ 0 := by decide

/-- An instruction that changes its destination, and one that names x0. -/
theorem witness_InstructionsWriteTheirDestinationAlone :
    ∃ t, exec (.addi 31 0 5) State.reset = .next t ∧ t.x 31 ≠ State.reset.x 31 := ⟨_, rfl, by decide⟩

/-- States that agree on x1, x2 and differ in x5 and x6. -/
theorem witness_InstructionsReadTheirSourcesAlone :
    let s₁ := start 0x00000100 [(1, 3), (2, 4), (5, 9), (6, 1)] [] 0x002082B3
    let s₂ := start 0x00000100 [(1, 3), (2, 4), (5, 8), (6, 2)] [] 0x002082B3
    s₁.pc = s₂.pc ∧ s₁.mem = s₂.mem ∧ s₁.params = s₂.params ∧ (∀ r ∈ sources (.add 5 1 2), s₁.x r = s₂.x r) ∧
      s₁.x 6 ≠ s₂.x 6 := by decide

/-- A store, an instruction that stores nothing, an unmatched word. -/
theorem witness_OnlyStoresChangeMemoryAndOnlyTheirBytes :
    goesOn (start 0x00000100 [(2, 0x11223344)] [] 0xFE202F23) = true ∧
    goesOn (start 0x00000100 [] [] 0xFFB00093) = true ∧ goesOn (start 0x00000100 [] [] 0) = true := by decide

theorem witness_GuardedWriteDiscardsWritesToX0 :
    ∃ t, exec (.addi 0 0 99) State.reset = .next t := ⟨_, rfl⟩

theorem witness_ObservationPortsReadTheState : ((-1 : Int) < 0 ∨ 31 < (-1 : Int)) ∧ ((32 : Int) < 0 ∨ 31 < (32 : Int)) := by
  decide

/-- Two addresses of one cell that are not equal. -/
theorem witness_AliasedAddressesNameOneByte :
    (0x00010064 : Word).toNat % State.reset.memBytes = (0x00000064 : Word).toNat % State.reset.memBytes := by decide

/-- Each width at the last offset it fits at. -/
theorem witness_NarrowReadsSeeTheBytesOfAStoredWord :
    (∃ t, exec (.sw 0 2 0xFFE) State.reset = .next t) ∧
    0 + Width.word.bytes ≤ 4 ∧ 2 + Width.half.bytes ≤ 4 ∧ 3 + Width.byte.bytes ≤ 4 := ⟨⟨_, rfl⟩, by decide⟩

/-- SW x2,4(x1) with x1 = pc, storing the word of ADDI x9,x0,42; and the same through an alias of the address. -/
theorem witness_StoreIsSeenByTheNextFetch :
    (∃ t, exec (.sw 1 2 4) (start 0x00000100 [(1, 0x00000100), (2, 0x02A00493)] [] 0x0020A223) = .next t) ∧
    (let s := start 0x00000100 [(1, 0x00000100), (2, 0x02A00493)] [] 0x0020A223
     (s.effAddr 1 4).toNat % s.memBytes = (s.pc.toNat + 4) % s.memBytes) ∧
    (let s := start 0x00000100 [(1, 0x00010100), (2, 0x02A00493)] [] 0x0020A223
     (s.effAddr 1 4).toNat % s.memBytes = (s.pc.toNat + 4) % s.memBytes) ∧
    decode 0x02A00493 = .ok (.addi 9 0 42) := ⟨⟨_, rfl⟩, by decide, by decide, by decide⟩

theorem witness_LoadedWordIsFetchedAtItsAddress :
    (0x00010000 : Word).toNat % State.reset.memBytes = State.reset.pc.toNat % State.reset.memBytes := by decide

theorem witness_AuipcAddsTheFieldShiftedByTheParameter :
    (0xFFFFF297 : Word) &&& 0x7F = 0x17 ∧ State.reset.params.auipcShift = .unshifted ∧
    (startWith ⟨MemSize.default, .rv32i, .nop⟩ 0 [] [] 0).params.auipcShift = .rv32i := by decide

theorem witness_UpperImmediatePairsBuildConstants :
    (5 : Reg) ≠ 0 ∧ State.reset.params.auipcShift = .unshifted := by decide

theorem witness_CallAndReturnComeBackAfterTheCall : State.reset.PcEven ∧ (1 : Reg) ≠ 0 :=
  ⟨by unfold State.PcEven; decide, by decide⟩

/-- The effective address of T54 and T60, computed as the statements compute it. -/
theorem witness_SignedLoadsExtendTheSign :
    (0x00008283 : Word) &&& 0x707F = 0x0003 ∧ (0xFFF09283 : Word) &&& 0x707F = 0x1003 ∧
    (0xFFFFFFFE : Word) = BitVec.ofInt 32 ((State.reset.x 0).toInt + (0xFFE : BitVec 12).toInt) := by decide

theorem witness_WordAndUnsignedLoadsReadLittleEndian :
    (0xFFE02283 : Word) &&& 0x707F = 0x2003 ∧ (0x8000C283 : Word) &&& 0x707F = 0x4003 ∧
    (0x0000D283 : Word) &&& 0x707F = 0x5003 ∧
    (0x0000FFFF : Word) =
      BitVec.ofInt 32 (((State.reset.setX 1 0x0000FFFF).x 1).toInt + (0x000 : BitVec 12).toInt) := by decide

/-- Words with every bit outside the mask set, for each mask and match the family statements name. -/
theorem witness_Selects :
    ∀ row ∈ opcodeTable, (row.pattern ||| ~~~row.mask) &&& row.mask = row.pattern := by decide

/-! The words of the family statements' first clauses (a mask and a match), from the rows of 95_test_vectors.md. -/

theorem witness_LuiLoadsTheUpperImmediate :
    (0xFFFFF2B7 : Word) &&& 0x7F = 0x37 := by decide

theorem witness_JalLinksAndJumpsByTheOffset :
    (0xFF9FF0EF : Word) &&& 0x7F = 0x6F := by decide

theorem witness_JalrLinksAndJumpsToTheEvenTarget :
    (0x000170E7 : Word) &&& 0x7F = 0x67 := by decide

theorem witness_EqualityBranchesCompareTheTwoRegisters :
    (0xFE000CE3 : Word) &&& 0x707F = 0x63 ∧
    (0xFE009CE3 : Word) &&& 0x707F = 0x1063 := by decide

theorem witness_OrderBranchesCompareSignedOrUnsigned :
    (0x0020C863 : Word) &&& 0x707F = 0x4063 ∧
    (0x0020D863 : Word) &&& 0x707F = 0x5063 ∧
    (0x0020E863 : Word) &&& 0x707F = 0x6063 ∧
    (0x0020F863 : Word) &&& 0x707F = 0x7063 := by decide

theorem witness_StoresWriteTheLowBytesAtTheirAddress :
    (0x80208023 : Word) &&& 0x707F = 0x23 ∧
    (0xFE201FA3 : Word) &&& 0x707F = 0x1023 ∧
    (0xFE202F23 : Word) &&& 0x707F = 0x2023 := by decide

theorem witness_AddiAddsTheSignedImmediate :
    (0xFFB00093 : Word) &&& 0x707F = 0x13 := by decide

theorem witness_CompareImmediatesWriteZeroOrOne :
    (0xFFF0A293 : Word) &&& 0x707F = 0x2013 ∧
    (0xFFF0B293 : Word) &&& 0x707F = 0x3013 := by decide

theorem witness_LogicImmediatesCombineWithTheSignExtendedImmediate :
    (0xFFF0C293 : Word) &&& 0x707F = 0x4013 ∧
    (0x8000E293 : Word) &&& 0x707F = 0x6013 ∧
    (0xFF00F293 : Word) &&& 0x707F = 0x7013 := by decide

theorem witness_ShiftImmediatesShiftByTheFiveBitAmount :
    (0xFE109293 : Word) &&& 0x707F = 0x1013 ∧
    (0x8010D293 : Word) &&& 0x4000707F = 0x5013 ∧
    (0xFE10D293 : Word) &&& 0x4000707F = 0x40005013 := by decide

theorem witness_AddAndSubWrapModulo2To32 :
    (0x002082B3 : Word) &&& 0xFE00707F = 0x33 ∧
    (0x402082B3 : Word) &&& 0xFE00707F = 0x40000033 := by decide

theorem witness_RegisterShiftsUseTheLowFiveBits :
    (0x002092B3 : Word) &&& 0xFE00707F = 0x1033 ∧
    (0x0020D2B3 : Word) &&& 0xFE00707F = 0x5033 ∧
    (0x4020D2B3 : Word) &&& 0xFE00707F = 0x40005033 := by decide

theorem witness_RegisterComparesWriteZeroOrOne :
    (0x0020A2B3 : Word) &&& 0xFE00707F = 0x2033 ∧
    (0x0020B2B3 : Word) &&& 0xFE00707F = 0x3033 := by decide

theorem witness_RegisterLogicCombinesBitByBit :
    (0x0020C2B3 : Word) &&& 0xFE00707F = 0x4033 ∧
    (0x0020E2B3 : Word) &&& 0xFE00707F = 0x6033 ∧
    (0x0020F2B3 : Word) &&& 0xFE00707F = 0x7033 := by decide

end Sys2Proof.Tests
end

/-! Proofs of the statements about the state (spec/10_state.md): where a step leaves the pc, what it keeps, which
registers an instruction reads and writes, and the state a machine starts in. -/

namespace Sys2Proof.Machine

open Sys2Proof.Claims

/-! ### The machine invariant -/

theorem inv_exec {i : Instr} {s t : State} (hs : s.Inv) (h : exec i s = .next t) : t.Inv := by
  obtain ⟨rd, v, -, -, rfl⟩ | ⟨rd, target, -, -, rfl⟩ | ⟨taken, target, -, -, rfl⟩ | ⟨a, w, v, -, -, rfl⟩ :=
    exec_cases h
  · exact inv_commit _ (inv_setX rd v hs)
  · exact inv_commit target (inv_setX rd _ hs)
  · exact inv_commit _ hs
  · exact inv_commit _ (inv_memWrite a w v hs)

/-- Settles O22: the four endings of an instruction and the unmatched word keep the invariant. -/
theorem stepKeepsTheMachineInvariant : Obligations.StepKeepsTheMachineInvariant := by
  intro s t hs h
  obtain ⟨i, -, hi⟩ | ⟨-, -, -, rfl⟩ := step_cases h
  · exact inv_exec hs hi
  · exact inv_commit _ hs

/-! ### Where an instruction goes on (R29) -/

/-- No arm of `exec` stops the machine (R127). -/
theorem exec_answers (i : Instr) (s : State) : ∃ t, exec i s = .next t := by
  cases i <;> exact ⟨_, rfl⟩

/-- The pc after an instruction: a target for the two jumps and the six branches when taken, else pc + 4. -/
def State.pcAfter (s : State) : Instr → Word
  | .jal _ offset => s.pcTarget offset
  | .jalr _ rs1 imm => s.jalrTarget rs1 imm
  | .beq rs1 rs2 offset => if BranchCond.taken .eq (s.x rs1) (s.x rs2) then s.pcTarget offset else s.pc + 4
  | .bne rs1 rs2 offset => if BranchCond.taken .ne (s.x rs1) (s.x rs2) then s.pcTarget offset else s.pc + 4
  | .blt rs1 rs2 offset => if BranchCond.taken .lt (s.x rs1) (s.x rs2) then s.pcTarget offset else s.pc + 4
  | .bge rs1 rs2 offset => if BranchCond.taken .ge (s.x rs1) (s.x rs2) then s.pcTarget offset else s.pc + 4
  | .bltu rs1 rs2 offset => if BranchCond.taken .ltu (s.x rs1) (s.x rs2) then s.pcTarget offset else s.pc + 4
  | .bgeu rs1 rs2 offset => if BranchCond.taken .geu (s.x rs1) (s.x rs2) then s.pcTarget offset else s.pc + 4
  | _ => s.pc + 4

theorem exec_pc {i : Instr} {s t : State} (h : exec i s = .next t) : t.pc = s.pcAfter i := by
  cases i <;> injection h with h <;> subst h <;> rfl

/-! ### Evenness of the pc (R31) -/

theorem evenOffset_append_zero {n : Nat} (v : BitVec n) : evenOffset (v ++ 0#1) = true := by
  simp [evenOffset, BitVec.getElem_append]

theorem evenOffset_insnOffsetJ (insn : Word) : evenOffset (insnOffsetJ insn) = true :=
  evenOffset_append_zero _

theorem evenOffset_insnOffsetB (insn : Word) : evenOffset (insnOffsetB insn) = true :=
  evenOffset_append_zero _

theorem optionAll_or {p : Instr → Bool} {a b : Option Instr} (ha : a.all p = true) (hb : b.all p = true) :
    (a.or b).all p = true := by
  cases a with
  | none => exact hb
  | some i => exact ha

/-- Whatever handler answers, the instruction is well-formed: only JAL and the branches ask for anything. -/
theorem all_wellFormed_matchWord (insn : Word) : (matchWord insn).all Instr.wellFormed = true := by
  refine optionAll_or ?upper <| optionAll_or ?jal <| optionAll_or ?branch <| optionAll_or ?load <|
    optionAll_or ?aluImmediate <| optionAll_or ?jalr <| optionAll_or ?store <| optionAll_or ?aluRegister ?extension
  case jal => simp [handleJal, apply_ite (Option.all _), Instr.wellFormed, evenOffset_insnOffsetJ]
  case branch => simp [handleBranch, apply_ite (Option.all _), Instr.wellFormed, evenOffset_insnOffsetB]
  all_goals simp [handleUpper, handleLoad, handleAluImmediate, handleJalr, handleStore, handleAluRegister,
    handleExtension, apply_ite (Option.all _), Instr.wellFormed]

theorem wellFormed_of_decode {insn : Word} {i : Instr} (h : decode insn = .ok i) : i.wellFormed = true := by
  simpa [decode_eq_ok.mp h] using all_wellFormed_matchWord insn

theorem even_add {a b : Word} (ha : a.getLsbD 0 = false) (hb : b.getLsbD 0 = false) : (a + b).getLsbD 0 = false := by
  simp only [BitVec.getLsbD_add (by decide : 0 < 32), BitVec.carry_zero, ha, hb, Bool.xor_false]

theorem even_sextWord {n : Nat} {v : BitVec (n + 1)} (h : evenOffset v = true) :
    (sextWord v).getLsbD 0 = false := by
  have h0 : v.getLsbD 0 = false := by simpa [evenOffset] using h
  simp only [sextWord, BitVec.getLsbD_signExtend, Nat.succ_pos, if_true, h0, Bool.and_false]

theorem pcTarget_even {n : Nat} {s : State} {offset : BitVec (n + 1)} (hs : s.PcEven) (h : evenOffset offset = true) :
    (s.pcTarget offset).getLsbD 0 = false :=
  even_add hs (even_sextWord h)

theorem seqPc_even {s : State} (hs : s.PcEven) : (s.pc + 4).getLsbD 0 = false :=
  even_add hs (by decide)

theorem jalrTarget_even (s : State) (rs1 : Reg) (imm : BitVec 12) : (s.jalrTarget rs1 imm).getLsbD 0 = false := by
  simp [State.jalrTarget]

theorem pcAfter_even {i : Instr} {s : State} (hi : i.wellFormed = true) (hs : s.PcEven) :
    (s.pcAfter i).getLsbD 0 = false := by
  have branch (taken : Bool) (offset : BitVec 13) (h : evenOffset offset = true) :
      (if taken then s.pcTarget offset else s.pc + 4).getLsbD 0 = false := by
    split
    · exact pcTarget_even hs h
    · exact seqPc_even hs
  cases i
  case jal => exact pcTarget_even hs hi
  case jalr => exact jalrTarget_even s _ _
  case beq | bne | blt | bge | bltu | bgeu => exact branch _ _ hi
  all_goals exact seqPc_even hs

/-- Settles O23: pc + 4, the decoded offsets and the target of JALR are even. -/
theorem stepKeepsThePcEven : Obligations.StepKeepsThePcEven := by
  intro s t hs h
  obtain ⟨i, hd, hi⟩ | ⟨-, -, -, rfl⟩ := step_cases h
  · rw [State.PcEven, exec_pc hi]
    exact pcAfter_even (wellFormed_of_decode hd) hs
  · exact seqPc_even hs

/-! ### The pc after a step (R29, R30) -/

theorem taken_eq_iff (a b : Word) : BranchCond.taken .eq a b = true ↔ a = b := by simp [BranchCond.taken]
theorem taken_ne_iff (a b : Word) : BranchCond.taken .ne a b = true ↔ a ≠ b := by simp [BranchCond.taken]
theorem taken_lt_iff (a b : Word) : BranchCond.taken .lt a b = true ↔ a.toInt < b.toInt := by
  simp [BranchCond.taken, signedLess]
theorem taken_ge_iff (a b : Word) : BranchCond.taken .ge a b = true ↔ a.toInt ≥ b.toInt := by
  simp [BranchCond.taken, signedLess]
theorem taken_ltu_iff (a b : Word) : BranchCond.taken .ltu a b = true ↔ a.toNat < b.toNat := by
  simp [BranchCond.taken, unsignedLess]
theorem taken_geu_iff (a b : Word) : BranchCond.taken .geu a b = true ↔ a.toNat ≥ b.toNat := by
  simp [BranchCond.taken, unsignedLess]

/-- The pc after a branch as the old pc and what is added to it. -/
theorem pcTarget_or_next {n : Nat} (s : State) (offset : BitVec n) {taken : Bool} {p : Prop} [Decidable p]
    (h : taken = true ↔ p) :
    (if taken then s.pcTarget offset else s.pc + 4) = s.pc + if p then offset.signExtend 32 else 4 := by
  by_cases hp : p
  · rw [if_pos (h.mpr hp), if_pos hp]; rfl
  · rw [if_neg (mt h.mp hp), if_neg hp]

/-- Settles O20: `exec_pc`, with the condition of each branch read as a comparison. -/
theorem pcGoesToNextWordOrTheJumpTarget : Obligations.PcGoesToNextWordOrTheJumpTarget := by
  intro s t h
  obtain ⟨i, hd, hi⟩ | ⟨why, hd, -, rfl⟩ := step_cases h <;> rw [hd]
  · have hpc := exec_pc hi
    cases i
    case beq rs1 rs2 offset => exact hpc.trans (pcTarget_or_next s offset (taken_eq_iff _ _))
    case bne rs1 rs2 offset => exact hpc.trans (pcTarget_or_next s offset (taken_ne_iff _ _))
    case blt rs1 rs2 offset => exact hpc.trans (pcTarget_or_next s offset (taken_lt_iff _ _))
    case bge rs1 rs2 offset => exact hpc.trans (pcTarget_or_next s offset (taken_ge_iff _ _))
    case bltu rs1 rs2 offset => exact hpc.trans (pcTarget_or_next s offset (taken_ltu_iff _ _))
    case bgeu rs1 rs2 offset => exact hpc.trans (pcTarget_or_next s offset (taken_geu_iff _ _))
    all_goals exact hpc
  · rfl

theorem step_answers {s : State} (h : ∀ why, decode s.fetch = .error why → s.params.unmatchedPolicy = .nop) :
    ∃ t, step s = .next t := by
  unfold step
  split
  · exact exec_answers _ s
  · next why hd => exact ⟨_, by rw [unmatched, h why hd]⟩

/-- A step that falls through answers a next state. -/
theorem step_answers_of_fallsThrough {s : State} (h : fallsThrough s = true) : ∃ t, step s = .next t :=
  step_answers fun why hd => by simpa [fallsThrough, hd] using h

/-- A step that falls through goes on at pc + 4. -/
theorem pc_of_fallsThrough {s t : State} (hf : fallsThrough s = true) (h : step s = .next t) : t.pc = s.pc + 4 := by
  have hpc := pcGoesToNextWordOrTheJumpTarget s t h
  unfold fallsThrough at hf
  generalize decode s.fetch = d at hf hpc
  cases d with
  | error why => exact hpc
  | ok i =>
    cases i
    case jal | jalr => cases hf
    case beq | bne | blt | bge | bltu | bgeu =>
      exact hpc.trans (congrArg (s.pc + ·) (if_neg (by simpa using hf)))
    all_goals exact hpc

/-- Settles O21: the pc is pc + 4 modulo 2^32, and N divides 2^32. -/
theorem sequentialPcAdvancesModuloMemorySize : Obligations.SequentialPcAdvancesModuloMemorySize := by
  intro s hf
  obtain ⟨t, ht⟩ := step_answers_of_fallsThrough hf
  have hpc : t.pc = s.pc + 4 := pc_of_fallsThrough hf ht
  have hnum : t.pc.toNat = (s.pc.toNat + 4) % 2 ^ 32 := by rw [hpc, BitVec.toNat_add]; rfl
  have hlt := s.pc.isLt
  refine ⟨t, ht, ?_, by omega, by omega⟩
  rw [hnum, Nat.mod_mod_of_dvd _ (memBytes_dvd s)]

/-! ### Construction and loading (R40, R260 to R262) -/

theorem loadImage_frame (image : List (Word × Byte)) (s : State) :
    (s.loadImage image).pc = s.pc ∧ (s.loadImage image).regs = s.regs ∧ (s.loadImage image).params = s.params := by
  induction image generalizing s with
  | nil => exact ⟨rfl, rfl, rfl⟩
  | cons e image ih => exact ih (s.setByte e.1 e.2)

theorem inv_setByte {s : State} (a : Word) (b : Byte) (h : s.Inv) : (s.setByte a b).Inv := by
  obtain ⟨hw, hn, hz⟩ := h
  exact ⟨Memory.wf_write _ b hw, Memory.within_write _ b hn (cellOf_lt s a), hz⟩

theorem inv_loadImage (image : List (Word × Byte)) {s : State} (h : s.Inv) : (s.loadImage image).Inv := by
  induction image generalizing s with
  | nil => exact h
  | cons e image ih => exact ih (inv_setByte e.1 e.2 h)

theorem inv_construct (c : Config) : (State.construct c).Inv :=
  ⟨rfl, rfl, Vector.getElem_set_self ..⟩

/-- Whether the loader's write `e` goes to the cell of `a`. -/
def State.writesCell (s : State) (a : Word) (e : Word × Byte) : Bool := decide (s.cellOf e.1 = s.cellOf a)

@[simp] theorem writesCell_setByte (s : State) (a c : Word) (b : Byte) :
    (s.setByte a b).writesCell c = s.writesCell c := rfl

/-- The last write of an image to the cell of `a` stays; with none the byte is as before. -/
theorem byteAt_loadImage (image : List (Word × Byte)) (s : State) (a : Word) :
    (s.loadImage image).byteAt a = ((image.reverse.find? (s.writesCell a)).map Prod.snd).getD (s.byteAt a) := by
  induction image generalizing s with
  | nil => rfl
  | cons e image ih =>
    rw [State.loadImage, ih, writesCell_setByte, List.reverse_cons, List.find?_append]
    cases image.reverse.find? (s.writesCell a) with
    | some last => rfl
    | none => by_cases h : s.cellOf a = s.cellOf e.1 <;> simp [State.writesCell, h, eq_comm]

theorem construct_x {c : Config} {r : Fin 32} (hr : r ≠ 0) :
    (State.construct c).x (BitVec.ofFin r) = c.resetRegs.get r := by
  have h : (0 : Nat) ≠ r.val := fun e => hr (Fin.ext e.symm)
  have hx : BitVec.ofFin r ≠ 0#5 := fun e => h (congrArg BitVec.toNat e).symm
  simp [State.x, State.construct, hx, Vector.getElem_set_ne, h, Vector.get]

/-- Settles O26: construction, then the loader's writes one by one. -/
theorem bootHoldsTheConfiguredValues : Obligations.BootHoldsTheConfiguredValues := by
  intro c
  obtain ⟨hpc, hregs, hparams⟩ := loadImage_frame c.initMem (State.construct c)
  refine ⟨rfl, fun r hr => ?_, hpc, hparams, fun a => ?_, inv_loadImage _ (inv_construct c)⟩
  · rw [← construct_x hr]
    simp only [State.x, State.boot, hregs]
  · exact byteAt_loadImage c.initMem (State.construct c) a

/-! ### The registers an instruction writes (R25) -/

theorem RegisterResult.x_of_ne {s t : State} {rd r : Reg} {v : Word} (h : RegisterResult s t rd v) (hr : r ≠ rd) :
    t.x r = s.x r := by
  rw [h.registers, if_neg hr]
  split
  · next h0 => rw [h0, x_zero]
  · rfl

theorem exec_x_of_ne {i : Instr} {s t : State} (h : exec i s = .next t) {r : Reg} (hr : destination i ≠ some r) :
    t.x r = s.x r := by
  obtain ⟨rd, v, hd, -, rfl⟩ | ⟨rd, target, hd, -, rfl⟩ | ⟨taken, target, -, -, rfl⟩ | ⟨a, w, v, -, -, rfl⟩ :=
    exec_cases h
  · exact (retire_result s rd v).x_of_ne fun e => hr (e ▸ hd)
  · exact (jumpAndLink_result s rd target).x_of_ne fun e => hr (e ▸ hd)
  · exact (branch_result s taken target).registers r
  · exact (store_result s a w v).registers r

theorem exec_params {i : Instr} {s t : State} (h : exec i s = .next t) : t.params = s.params := by
  obtain ⟨rd, v, -, -, rfl⟩ | ⟨rd, target, -, -, rfl⟩ | ⟨taken, target, -, -, rfl⟩ | ⟨a, w, v, -, -, rfl⟩ :=
    exec_cases h
  · exact (retire_result s rd v).params
  · exact (jumpAndLink_result s rd target).params
  · exact (branch_result s taken target).params
  · exact (store_result s a w v).params

/-- Settles O27: the frame of each ending; x0 reads 0 before and after. -/
theorem instructionsWriteTheirDestinationAlone : Obligations.InstructionsWriteTheirDestinationAlone := by
  intro i s t h
  refine ⟨fun r hr => ⟨?_, ?_⟩, exec_params h⟩
  · by_contra hd
    exact hr (exec_x_of_ne h hd)
  · rintro rfl
    exact hr rfl

/-! ### The registers an instruction reads (R25, R125) -/

/-- `s` and `t` differ in no more than the registers. -/
structure SameButRegisters (s t : State) : Prop where
  pc : s.pc = t.pc
  mem : s.mem = t.mem
  params : s.params = t.params

namespace SameButRegisters

variable {s₁ s₂ : State}

theorem memBytes (h : SameButRegisters s₁ s₂) : s₁.memBytes = s₂.memBytes := by
  rw [State.memBytes, h.params, State.memBytes]

theorem cellOf (h : SameButRegisters s₁ s₂) (a : Word) : s₁.cellOf a = s₂.cellOf a := by
  rw [State.cellOf, h.memBytes, State.cellOf]

theorem byteAt (h : SameButRegisters s₁ s₂) (a : Word) : s₁.byteAt a = s₂.byteAt a := by
  rw [State.byteAt, h.mem, h.cellOf, State.byteAt]

theorem memRead (h : SameButRegisters s₁ s₂) (a : Word) (w : Width) : s₁.memRead a w = s₂.memRead a w :=
  memRead_congr h.byteAt a w

theorem seqPc (h : SameButRegisters s₁ s₂) : s₁.seqPc = s₂.seqPc := by
  rw [State.seqPc, h.pc, State.seqPc]

theorem pcTarget (h : SameButRegisters s₁ s₂) {n : Nat} {offset : BitVec n} :
    s₁.pcTarget offset = s₂.pcTarget offset := by
  rw [State.pcTarget, h.pc, State.pcTarget]

theorem loadSigned (h : SameButRegisters s₁ s₂) (a : Word) (w : Width) : s₁.loadSigned a w = s₂.loadSigned a w := by
  rw [State.loadSigned, h.memRead, State.loadSigned]

theorem loadUnsigned (h : SameButRegisters s₁ s₂) (a : Word) (w : Width) :
    s₁.loadUnsigned a w = s₂.loadUnsigned a w :=
  h.memRead a w

theorem commit (h : SameButRegisters s₁ s₂) (p : Word) : SameButRegisters (s₁.commit p) (s₂.commit p) :=
  ⟨rfl, h.mem, h.params⟩

theorem setX (h : SameButRegisters s₁ s₂) (rd : Reg) (v : Word) : SameButRegisters (s₁.setX rd v) (s₂.setX rd v) :=
  ⟨by simp [h.pc], by simp [h.mem], by simp [h.params]⟩

theorem setByte (h : SameButRegisters s₁ s₂) (a : Word) (b : Byte) :
    SameButRegisters (s₁.setByte a b) (s₂.setByte a b) :=
  ⟨h.pc, by simp [h.mem, h.cellOf], h.params⟩

theorem setBytes (bs : List Byte) (h : SameButRegisters s₁ s₂) (a : Word) :
    SameButRegisters (s₁.setBytes a bs) (s₂.setBytes a bs) := by
  induction bs generalizing s₁ s₂ a with
  | nil => exact h
  | cons b bs ih => exact ih (h.setByte a b) (a + 1)

theorem retire (h : SameButRegisters s₁ s₂) (rd : Reg) (v : Word) :
    SameButRegisters (s₁.retire rd v) (s₂.retire rd v) := by
  rw [State.retire, State.retire, h.seqPc]
  exact (h.setX rd v).commit _

theorem jumpAndLink (h : SameButRegisters s₁ s₂) (rd : Reg) (target : Word) :
    SameButRegisters (s₁.jumpAndLink rd target) (s₂.jumpAndLink rd target) := by
  rw [State.jumpAndLink, State.jumpAndLink, h.seqPc]
  exact (h.setX rd _).commit target

theorem branch (h : SameButRegisters s₁ s₂) (taken : Bool) (target : Word) :
    SameButRegisters (s₁.branch taken target) (s₂.branch taken target) := by
  rw [State.branch, State.branch, h.seqPc]
  exact h.commit _

theorem store (h : SameButRegisters s₁ s₂) (a : Word) (w : Width) (v : Word) :
    SameButRegisters (s₁.store a w v) (s₂.store a w v) := by
  rw [State.store, State.store, h.seqPc]
  exact (h.setBytes _ a).commit _

end SameButRegisters

theorem effAddr_congr {s₁ s₂ : State} {rs1 : Reg} {imm : BitVec 12} (hx : s₁.x rs1 = s₂.x rs1) :
    s₁.effAddr rs1 imm = s₂.effAddr rs1 imm := by
  rw [State.effAddr, hx, State.effAddr]

/-- `exec` of an instruction with destination `d` at `s₁` and at `s₂` has the same effect: the next states differ in no
more than the registers, and in the destination not at all. -/
def SameEffect (d : Option Reg) (o₁ o₂ : Host.Outcome State Fault Refusal) : Prop :=
  ∃ t₁ t₂, o₁ = .next t₁ ∧ o₂ = .next t₂ ∧ SameButRegisters t₁ t₂ ∧ ∀ r, d = some r → t₁.x r = t₂.x r

section

variable {s₁ s₂ : State} (h : SameButRegisters s₁ s₂)
include h

theorem sameEffect_retire {rd : Reg} {v₁ v₂ : Word} (hv : v₁ = v₂) :
    SameEffect (some rd) (.next (s₁.retire rd v₁)) (.next (s₂.retire rd v₂)) := by
  subst hv
  refine ⟨_, _, rfl, rfl, h.retire rd v₁, ?_⟩
  rintro _ ⟨⟩
  rw [(retire_result s₁ rd v₁).registers, (retire_result s₂ rd v₁).registers, if_pos rfl, if_pos rfl]

theorem sameEffect_jumpAndLink {rd : Reg} {p₁ p₂ : Word} (hp : p₁ = p₂) :
    SameEffect (some rd) (.next (s₁.jumpAndLink rd p₁)) (.next (s₂.jumpAndLink rd p₂)) := by
  subst hp
  refine ⟨_, _, rfl, rfl, h.jumpAndLink rd p₁, ?_⟩
  rintro _ ⟨⟩
  rw [(jumpAndLink_result s₁ rd p₁).registers, (jumpAndLink_result s₂ rd p₁).registers, if_pos rfl, if_pos rfl, h.pc]

theorem sameEffect_branch {b₁ b₂ : Bool} {p₁ p₂ : Word} (hb : b₁ = b₂) (hp : p₁ = p₂) :
    SameEffect none (.next (s₁.branch b₁ p₁)) (.next (s₂.branch b₂ p₂)) := by
  subst hb hp
  exact ⟨_, _, rfl, rfl, h.branch b₁ p₁, nofun⟩

theorem sameEffect_store {a₁ a₂ v₁ v₂ : Word} (ha : a₁ = a₂) (w : Width) (hv : v₁ = v₂) :
    SameEffect none (.next (s₁.store a₁ w v₁)) (.next (s₂.store a₂ w v₂)) := by
  subst ha hv
  exact ⟨_, _, rfl, rfl, h.store a₁ w v₁, nofun⟩

/-- Every operand of an instruction is a source register, the pc, memory, a parameter or a field of the instruction. -/
theorem exec_sameEffect {i : Instr} (hx : ∀ r ∈ sources i, s₁.x r = s₂.x r) :
    SameEffect (destination i) (exec i s₁) (exec i s₂) := by
  cases i <;> simp only [sources, List.mem_cons, List.not_mem_nil, or_false, forall_eq_or_imp, forall_eq] at hx
  case lui => exact sameEffect_retire h rfl
  case auipc => exact sameEffect_retire h (by rw [h.pc, h.params])
  case jal => exact sameEffect_jumpAndLink h h.pcTarget
  case jalr => exact sameEffect_jumpAndLink h (by rw [State.jalrTarget, effAddr_congr hx, State.jalrTarget])
  case beq | bne | blt | bge | bltu | bgeu => exact sameEffect_branch h (by rw [hx.1, hx.2]) h.pcTarget
  case sb | sh | sw => exact sameEffect_store h (effAddr_congr hx.1) _ hx.2
  case lb | lh => exact sameEffect_retire h (by rw [effAddr_congr hx, h.loadSigned])
  case lw | lbu | lhu => exact sameEffect_retire h (by rw [effAddr_congr hx, h.loadUnsigned])
  all_goals exact sameEffect_retire h (by simp only [hx])

end

/-- Settles O28: the next states have the same effect by `exec_sameEffect`; the rest is the register frame. -/
theorem instructionsReadTheirSourcesAlone : Obligations.InstructionsReadTheirSourcesAlone := by
  intro i s₁ s₂ hpc hmem hparams hx
  obtain ⟨t₁, t₂, h₁, h₂, same, written⟩ := exec_sameEffect ⟨hpc, hmem, hparams⟩ hx
  exact ⟨t₁, t₂, h₁, h₂, same.pc, same.mem, written, fun r hr => ⟨exec_x_of_ne h₁ hr, exec_x_of_ne h₂ hr⟩⟩

/-! ### The register file and the observation ports (R22, R23, R26, R27, R32) -/

theorem getRegisterValue_toNat (s : State) (r : Reg) : s.getRegisterValue r.toNat = .ok (s.x r).toInt := by
  have hr := r.isLt
  rw [State.getRegisterValue, if_pos (by omega), BitVec.ofInt_natCast, BitVec.ofNat_toNat, BitVec.setWidth_eq]

theorem getRegisterValue_outside (s : State) {k : Int} (h : k < 0 ∨ 31 < k) :
    s.getRegisterValue k = .error (.registerIndexOutside k) := by
  rw [State.getRegisterValue, if_neg (by omega)]

/-- Settles O30: `x_setX`, with the value reduced modulo 2^32, and `x_zero`. -/
theorem guardedWriteDiscardsWritesToX0 : Obligations.GuardedWriteDiscardsWritesToX0 := by
  refine ⟨fun s i j v => ?_, fun s i v => ⟨?_, ?_, ?_, ?_⟩, fun i s t _ => ⟨x_zero t, getRegisterValue_toNat t 0⟩⟩
  · have hv : ((BitVec.ofInt 32 v).toNat : Int) = v % 2 ^ 32 := by
      rw [BitVec.toNat_ofInt]
      omega
    rw [x_setX]
    split_ifs
    · rfl
    · exact hv
    · rfl
  · exact setX_pc s i v
  · exact setX_mem s i v
  · exact setX_params s i v
  · exact setX_zero s v

/-- Settles O31: `toInt` of the register, written out by its sign. -/
theorem observationPortsReadTheState : Obligations.ObservationPortsReadTheState := by
  refine fun s => ⟨fun r => ?_, fun k hk => getRegisterValue_outside s hk, rfl⟩
  rw [getRegisterValue_toNat, BitVec.toInt_eq_toNat_cond]
  have h : 2 * (s.x r).toNat < 2 ^ 32 ↔ (s.x r).toNat < 2 ^ 31 := by omega
  simp only [h]
  rfl

end Sys2Proof.Machine

/-! Proofs of the statements about memory (spec/20_memory.md): what a step changes in it, that congruent addresses name
one byte, and what a read sees of a store. -/

namespace Sys2Proof.Machine

/-! ### What a step changes in memory (R62) -/

/-- A byte outside the instruction's store target reads as before; where there is no target, every byte does. -/
theorem exec_byteAt_outside {i : Instr} {s t : State} (h : exec i s = .next t) {b : Word}
    (hb : ∀ a w, storeTarget s i = some (a, w) → ¬ s.touches a w b) : t.byteAt b = s.byteAt b := by
  obtain ⟨rd, v, -, -, rfl⟩ | ⟨rd, target, -, -, rfl⟩ | ⟨taken, target, -, -, rfl⟩ | ⟨a, w, v, -, hst, rfl⟩ :=
    exec_cases h
  · exact (retire_result s rd v).memory b
  · exact (jumpAndLink_result s rd target).memory b
  · exact (branch_result s taken target).memory b
  · exact (store_result s a w v).memory b (hb a w hst)

/-- Settles O29: the frame of `exec` at the decoded instruction; an unmatched word moves the pc alone. -/
theorem onlyStoresChangeMemoryAndOnlyTheirBytes : Obligations.OnlyStoresChangeMemoryAndOnlyTheirBytes := by
  intro s t h
  obtain ⟨i, hd, hi⟩ | ⟨why, hd, -, rfl⟩ := step_cases h <;> rw [hd]
  · refine ⟨exec_params hi, ?_⟩
    dsimp only
    split
    · next a w hst =>
      refine fun b hb => exec_byteAt_outside hi fun a' w' hst' => ?_
      cases hst.symm.trans hst'
      exact hb
    · next hst => exact fun b => exec_byteAt_outside hi fun a w hst' => nomatch hst.symm.trans hst'
  · exact ⟨rfl, fun b => rfl⟩

/-! ### Congruent addresses (R51 to R53) -/

/-- Settles O32: `byteAt_setByte`, with the value reduced modulo 256. -/
theorem aliasedAddressesNameOneByte : Obligations.AliasedAddressesNameOneByte := by
  refine ⟨fun s a b v => ?_, fun s a v => ⟨fun r => setByte_x s a _ r, rfl, rfl⟩,
    fun s a b h => byteAt_eq_of_cellOf_eq h⟩
  have hv : ((BitVec.ofInt 8 v).toNat : Int) = v % 256 := by
    rw [BitVec.toNat_ofInt]
    omega
  change (((s.setByte a (BitVec.ofInt 8 v)).byteAt b).toNat : Int) =
    if s.cellOf a = s.cellOf b then v % 256 else ((s.byteAt b).toNat : Int)
  simp only [byteAt_setByte, eq_comm (a := s.cellOf b) (b := s.cellOf a)]
  split_ifs
  · exact hv
  · rfl

theorem cellOf_add_congr {s : State} {a b : Word} (h : s.cellOf a = s.cellOf b) (c : Word) :
    s.cellOf (a + c) = s.cellOf (b + c) := by
  rw [cellOf_add, cellOf_add]
  exact Nat.ModEq.add_right c.toNat h

theorem bytesAt_eq_of_cellOf_eq {s : State} {a b : Word} (h : s.cellOf a = s.cellOf b) (n : Nat) :
    s.bytesAt a n = s.bytesAt b n := by
  induction n generalizing a b with
  | zero => rfl
  | succ n ih => rw [State.bytesAt, byteAt_eq_of_cellOf_eq h, ih (cellOf_add_congr h 1), State.bytesAt]

/-- A read at an alias of an address is a read at the address. -/
theorem memRead_eq_of_cellOf_eq {s : State} {a b : Word} (h : s.cellOf a = s.cellOf b) (w : Width) :
    s.memRead a w = s.memRead b w := by
  rw [State.memRead, bytesAt_eq_of_cellOf_eq h, State.memRead]

/-! ### What a read sees of a store (R56 to R59) -/

theorem extractLsb'_ushiftRight (v : Word) (k start len : Nat) :
    (v >>> k).extractLsb' start len = v.extractLsb' (k + start) len := by
  ext j hj
  simp only [BitVec.getElem_extractLsb', BitVec.getLsbD_ushiftRight, Nat.add_assoc]

/-- `n` bytes that are the low bytes of a word assemble to that word modulo 2^(8n). -/
theorem assemble_bytesAt {s : State} {a v : Word} {n : Nat}
    (h : ∀ i, i < n → s.byteAt (a + BitVec.ofNat 32 i) = v.extractLsb' (8 * i) 8) :
    assemble (s.bytesAt a n) = v.toNat % 2 ^ (8 * n) := by
  induction n generalizing a v with
  | zero => rw [State.bytesAt, assemble, Nat.mul_zero, Nat.pow_zero, Nat.mod_one]
  | succ n ih =>
    have hfirst : (s.byteAt a).toNat = v.toNat % 2 ^ 8 := by
      have h0 := h 0 n.succ_pos
      rw [BitVec.add_zero] at h0
      rw [h0, BitVec.extractLsb'_toNat, Nat.mul_zero, Nat.shiftRight_zero]
    have hrest : assemble (s.bytesAt (a + 1) n) = v.toNat / 2 ^ 8 % 2 ^ (8 * n) := by
      rw [ih (v := v >>> 8), BitVec.toNat_ushiftRight, Nat.shiftRight_eq_div_pow]
      intro i hi
      rw [succ_addr, h (i + 1) (by omega), extractLsb'_ushiftRight, Nat.mul_succ, Nat.add_comm]
    rw [State.bytesAt, assemble, hfirst, hrest, Nat.mul_succ, Nat.add_comm (8 * n), Nat.pow_add, Nat.mod_mul]

theorem toNat_memRead_of_lowBytes {s : State} {a v : Word} {w : Width}
    (h : ∀ i, i < w.bytes → s.byteAt (a + BitVec.ofNat 32 i) = v.extractLsb' (8 * i) 8) :
    (s.memRead a w).toNat = v.toNat % 2 ^ (8 * w.bytes) := by
  rw [State.memRead, assemble_bytesAt h, BitVec.toNat_ofNat]
  exact Nat.mod_eq_of_lt ((Nat.mod_le _ _).trans_lt v.isLt)

/-- A read inside the bytes of a store sees the bytes of the stored word, from the offset on. -/
theorem StoreResult.toNat_memRead {s t : State} {a v : Word} {w : Width} (h : StoreResult s t a w v) {r : Width}
    {d : Nat} (hd : d + r.bytes ≤ w.bytes) :
    (t.memRead (a + BitVec.ofNat 32 d) r).toNat = v.toNat / 2 ^ (8 * d) % 2 ^ (8 * r.bytes) := by
  rw [toNat_memRead_of_lowBytes (v := v >>> (8 * d)), BitVec.toNat_ushiftRight, Nat.shiftRight_eq_div_pow]
  intro i hi
  rw [BitVec.add_assoc, ← BitVec.ofNat_add, h.stored (d + i) (by omega), extractLsb'_ushiftRight, Nat.mul_add]

theorem exec_sw {s t : State} {rs1 rs2 : Reg} {imm : BitVec 12} (h : exec (.sw rs1 rs2 imm) s = .next t) :
    t = s.store (s.effAddr rs1 imm) .word (s.x rs2) := by
  injection h with h
  exact h.symm

/-- Settles O33: the read lies inside the four bytes of the store. -/
theorem narrowReadsSeeTheBytesOfAStoredWord : Obligations.NarrowReadsSeeTheBytesOfAStoredWord := by
  intro s t rs1 rs2 imm h w d hd
  rw [exec_sw h]
  exact (store_result s _ .word _).toNat_memRead hd

/-! ### A stored word is fetched (R71) -/

/-- A word read at any alias of the address a word was stored at is that word. -/
theorem StoreResult.memRead_alias {s t : State} {a b v : Word} (h : StoreResult s t a .word v)
    (hb : s.cellOf b = s.cellOf a) : t.memRead b .word = v := by
  have hcell : t.cellOf b = t.cellOf a := by
    simpa only [State.cellOf, State.memBytes, h.params] using hb
  have hread := h.toNat_memRead (r := .word) (d := 0) (Nat.le_refl _)
  rw [memRead_eq_of_cellOf_eq hcell]
  apply BitVec.eq_of_toNat_eq
  rw [BitVec.add_zero, Nat.mul_zero, Nat.pow_zero, Nat.div_one] at hread
  exact hread.trans (Nat.mod_eq_of_lt v.isLt)

theorem step_eq_exec {s : State} {i : Instr} (h : decode s.fetch = .ok i) : step s = exec i s := by
  rw [step, h]

/-- Settles O35: the store leaves the pc at pc + 4, an alias of the address it stored at. -/
theorem storeIsSeenByTheNextFetch : Obligations.StoreIsSeenByTheNextFetch := by
  intro s t rs1 rs2 imm h halias
  have hcell : s.cellOf (s.pc + 4) = s.cellOf (s.effAddr rs1 imm) := by
    rw [cellOf_add]
    exact halias.symm
  have hfetch : t.fetch = s.x rs2 := by
    rw [exec_sw h]
    exact (store_result s _ .word _).memRead_alias hcell
  exact ⟨hfetch, fun i hi => step_eq_exec (hfetch ▸ hi)⟩

end Sys2Proof.Machine

/-! Proofs of the statements about the encoding (spec/30_encoding.md): what the decoder answers, what the encoder makes of
it, which words match no row, the values of the immediates, and the bit-field extractor. -/

namespace Sys2Proof

open Sys2Proof.Machine Sys2Proof.Claims

/-! ### What the decoder answers (R94, R95)

A word decodes to `i` exactly when it satisfies the row of `i` and the operands of `i` are the word's fields. -/

/-- The instruction of the same row whose operands are the fields of `insn` (R82 to R93). -/
def Instr.withFieldsOf (insn : Word) : Instr → Instr
  | .lui _ _ => .lui (insnRd insn) (insnImm20 insn)
  | .auipc _ _ => .auipc (insnRd insn) (insnImm20 insn)
  | .jal _ _ => .jal (insnRd insn) (insnOffsetJ insn)
  | .beq _ _ _ => .beq (insnRs1 insn) (insnRs2 insn) (insnOffsetB insn)
  | .bne _ _ _ => .bne (insnRs1 insn) (insnRs2 insn) (insnOffsetB insn)
  | .blt _ _ _ => .blt (insnRs1 insn) (insnRs2 insn) (insnOffsetB insn)
  | .bge _ _ _ => .bge (insnRs1 insn) (insnRs2 insn) (insnOffsetB insn)
  | .bltu _ _ _ => .bltu (insnRs1 insn) (insnRs2 insn) (insnOffsetB insn)
  | .bgeu _ _ _ => .bgeu (insnRs1 insn) (insnRs2 insn) (insnOffsetB insn)
  | .lb _ _ _ => .lb (insnRd insn) (insnRs1 insn) (insnImmI insn)
  | .lh _ _ _ => .lh (insnRd insn) (insnRs1 insn) (insnImmI insn)
  | .lw _ _ _ => .lw (insnRd insn) (insnRs1 insn) (insnImmI insn)
  | .lbu _ _ _ => .lbu (insnRd insn) (insnRs1 insn) (insnImmI insn)
  | .lhu _ _ _ => .lhu (insnRd insn) (insnRs1 insn) (insnImmI insn)
  | .addi _ _ _ => .addi (insnRd insn) (insnRs1 insn) (insnImmI insn)
  | .slti _ _ _ => .slti (insnRd insn) (insnRs1 insn) (insnImmI insn)
  | .sltiu _ _ _ => .sltiu (insnRd insn) (insnRs1 insn) (insnImmI insn)
  | .xori _ _ _ => .xori (insnRd insn) (insnRs1 insn) (insnImmI insn)
  | .ori _ _ _ => .ori (insnRd insn) (insnRs1 insn) (insnImmI insn)
  | .andi _ _ _ => .andi (insnRd insn) (insnRs1 insn) (insnImmI insn)
  | .slli _ _ _ => .slli (insnRd insn) (insnRs1 insn) (insnShamt insn)
  | .srli _ _ _ => .srli (insnRd insn) (insnRs1 insn) (insnShamt insn)
  | .srai _ _ _ => .srai (insnRd insn) (insnRs1 insn) (insnShamt insn)
  | .jalr _ _ _ => .jalr (insnRd insn) (insnRs1 insn) (insnImmI insn)
  | .sb _ _ _ => .sb (insnRs1 insn) (insnRs2 insn) (insnImmS insn)
  | .sh _ _ _ => .sh (insnRs1 insn) (insnRs2 insn) (insnImmS insn)
  | .sw _ _ _ => .sw (insnRs1 insn) (insnRs2 insn) (insnImmS insn)
  | .add _ _ _ => .add (insnRd insn) (insnRs1 insn) (insnRs2 insn)
  | .sub _ _ _ => .sub (insnRd insn) (insnRs1 insn) (insnRs2 insn)
  | .sll _ _ _ => .sll (insnRd insn) (insnRs1 insn) (insnRs2 insn)
  | .slt _ _ _ => .slt (insnRd insn) (insnRs1 insn) (insnRs2 insn)
  | .sltu _ _ _ => .sltu (insnRd insn) (insnRs1 insn) (insnRs2 insn)
  | .xor _ _ _ => .xor (insnRd insn) (insnRs1 insn) (insnRs2 insn)
  | .srl _ _ _ => .srl (insnRd insn) (insnRs1 insn) (insnRs2 insn)
  | .sra _ _ _ => .sra (insnRd insn) (insnRs1 insn) (insnRs2 insn)
  | .or _ _ _ => .or (insnRd insn) (insnRs1 insn) (insnRs2 insn)
  | .and _ _ _ => .and (insnRd insn) (insnRs1 insn) (insnRs2 insn)

@[simp] theorem row_withFieldsOf (insn : Word) (i : Instr) : (i.withFieldsOf insn).row = i.row := by
  cases i <;> rfl

/-- Every funct3 is one of the eight the handlers name. -/
theorem funct3_cases (f : BitVec 3) : f = 0 ∨ f = 1 ∨ f = 2 ∨ f = 3 ∨ f = 4 ∨ f = 5 ∨ f = 6 ∨ f = 7 := by
  revert f
  decide

/-- A word that satisfies the row of `i` is taken by that row's handler, which reads its operands from the word. -/
theorem matchWord_of_row {insn : Word} (i : Instr) (h : insn &&& i.row.mask = i.row.pattern) :
    matchWord insn = some (i.withFieldsOf insn) := by
  cases i <;> simp only [Instr.row] at h
  case lui =>
    have hop : insnOpcode insn = 0x37#7 := (mask_opcode (by decide) insn).mp h
    simp [matchWord_0x37 hop, handleUpper, Instr.withFieldsOf, hop]
  case auipc =>
    have hop : insnOpcode insn = 0x17#7 := (mask_opcode (by decide) insn).mp h
    simp [matchWord_0x17 hop, handleUpper, Instr.withFieldsOf, hop]
  case jal =>
    have hop : insnOpcode insn = 0x6F#7 := (mask_opcode (by decide) insn).mp h
    simp [matchWord_0x6F hop, handleJal, Instr.withFieldsOf, hop]
  case jalr =>
    have hop : insnOpcode insn = 0x67#7 := (mask_opcode (by decide) insn).mp h
    simp [matchWord_0x67 hop, handleJalr, Instr.withFieldsOf, hop]
  case beq | bne | blt | bge | bltu | bgeu =>
    obtain ⟨hop, hf3⟩ := (mask_opcode_funct3 (by decide) insn).mp h
    simp [matchWord_0x63 hop, handleBranch, Instr.withFieldsOf, hop, hf3]
  case lb | lh | lw | lbu | lhu =>
    obtain ⟨hop, hf3⟩ := (mask_opcode_funct3 (by decide) insn).mp h
    simp [matchWord_0x03 hop, handleLoad, Instr.withFieldsOf, hop, hf3]
  case addi | slti | sltiu | xori | ori | andi | slli =>
    obtain ⟨hop, hf3⟩ := (mask_opcode_funct3 (by decide) insn).mp h
    simp [matchWord_0x13 hop, handleAluImmediate, Instr.withFieldsOf, hop, hf3]
  case srli | srai =>
    obtain ⟨hop, hf3, harith⟩ := (mask_shift (by decide) insn).mp h
    simp [matchWord_0x13 hop, handleAluImmediate, Instr.withFieldsOf, hop, hf3, harith]
  case sb | sh | sw =>
    obtain ⟨hop, hf3⟩ := (mask_opcode_funct3 (by decide) insn).mp h
    simp [matchWord_0x23 hop, handleStore, Instr.withFieldsOf, hop, hf3]
  case add | sub | sll | slt | sltu | xor | srl | sra | or | and =>
    obtain ⟨hop, hf3, hf7⟩ := (mask_register (by decide) insn).mp h
    simp [matchWord_0x33 hop, handleAluRegister, Instr.withFieldsOf, hop, hf3, hf7]

/-- The word satisfies the row of `i`, and the operands of `i` are the word's fields. -/
def Instr.fits (insn : Word) (i : Instr) : Bool :=
  decide (insn &&& i.row.mask = i.row.pattern) && decide (i.withFieldsOf insn = i)

theorem fits_iff {insn : Word} {i : Instr} :
    i.fits insn = true ↔ insn &&& i.row.mask = i.row.pattern ∧ i.withFieldsOf insn = i := by
  simp [Instr.fits]

/-- Whatever a handler answers fits the word. -/
theorem all_fits_matchWord (insn : Word) : (matchWord insn).all (Instr.fits insn) = true := by
  refine optionAll_or ?upper <| optionAll_or ?jal <| optionAll_or ?branch <| optionAll_or ?load <|
    optionAll_or ?aluImmediate <| optionAll_or ?jalr <| optionAll_or ?store <| optionAll_or ?aluRegister ?extension
  case upper | jal | jalr =>
    simp +contextual [handleUpper, handleJal, handleJalr, apply_ite (Option.all _), Instr.fits, Instr.row,
      Instr.withFieldsOf, mask_opcode]
  case branch | load | store =>
    simp +contextual [handleBranch, handleLoad, handleStore, apply_ite (Option.all _), Instr.fits, Instr.row,
      Instr.withFieldsOf, mask_opcode_funct3]
  case aluImmediate =>
    obtain h | h | h | h | h | h | h | h := funct3_cases (insnFunct3 insn) <;>
      simp +contextual [handleAluImmediate, apply_ite (Option.all _), Instr.fits, Instr.row, Instr.withFieldsOf,
        mask_opcode_funct3, mask_shift, h, BitVec.eq_zero_or_eq_one]
  case aluRegister =>
    obtain h | h | h | h | h | h | h | h := funct3_cases (insnFunct3 insn) <;>
      simp +contextual [handleAluRegister, apply_ite (Option.all _), Instr.fits, Instr.row, Instr.withFieldsOf,
        mask_register, h]
  case extension => rfl

theorem decode_eq_ok_iff {insn : Word} {i : Instr} :
    decode insn = .ok i ↔ insn &&& i.row.mask = i.row.pattern ∧ i.withFieldsOf insn = i := by
  rw [decode_eq_ok]
  constructor
  · intro h
    simpa [h, fits_iff] using all_fits_matchWord insn
  · rintro ⟨hrow, hfields⟩
    rw [matchWord_of_row i hrow, hfields]

theorem decode_of_row {insn : Word} (i : Instr) (h : insn &&& i.row.mask = i.row.pattern) :
    decode insn = .ok (i.withFieldsOf insn) :=
  decode_eq_ok.mpr (matchWord_of_row i h)

theorem row_of_decode {insn : Word} {i : Instr} (h : decode insn = .ok i) : insn &&& i.row.mask = i.row.pattern :=
  (decode_eq_ok_iff.mp h).1

theorem withFieldsOf_of_decode {insn : Word} {i : Instr} (h : decode insn = .ok i) : i.withFieldsOf insn = i :=
  (decode_eq_ok_iff.mp h).2

/-! ### Decoding what was encoded (R82 to R90) -/

/-- The laws of the instructions, each under its own name, as one statement about every instruction. -/
theorem encode_and_mask : ∀ i : Instr, encode i &&& i.row.mask = i.row.pattern
  | .lui a b => Laws.EncodeSelectsRow.lui a b
  | .auipc a b => Laws.EncodeSelectsRow.auipc a b
  | .jal a b => Laws.EncodeSelectsRow.jal a b
  | .beq a b c => Laws.EncodeSelectsRow.beq a b c
  | .bne a b c => Laws.EncodeSelectsRow.bne a b c
  | .blt a b c => Laws.EncodeSelectsRow.blt a b c
  | .bge a b c => Laws.EncodeSelectsRow.bge a b c
  | .bltu a b c => Laws.EncodeSelectsRow.bltu a b c
  | .bgeu a b c => Laws.EncodeSelectsRow.bgeu a b c
  | .lb a b c => Laws.EncodeSelectsRow.lb a b c
  | .lh a b c => Laws.EncodeSelectsRow.lh a b c
  | .lw a b c => Laws.EncodeSelectsRow.lw a b c
  | .lbu a b c => Laws.EncodeSelectsRow.lbu a b c
  | .lhu a b c => Laws.EncodeSelectsRow.lhu a b c
  | .addi a b c => Laws.EncodeSelectsRow.addi a b c
  | .slti a b c => Laws.EncodeSelectsRow.slti a b c
  | .sltiu a b c => Laws.EncodeSelectsRow.sltiu a b c
  | .xori a b c => Laws.EncodeSelectsRow.xori a b c
  | .ori a b c => Laws.EncodeSelectsRow.ori a b c
  | .andi a b c => Laws.EncodeSelectsRow.andi a b c
  | .slli a b c => Laws.EncodeSelectsRow.slli a b c
  | .srli a b c => Laws.EncodeSelectsRow.srli a b c
  | .srai a b c => Laws.EncodeSelectsRow.srai a b c
  | .jalr a b c => Laws.EncodeSelectsRow.jalr a b c
  | .sb a b c => Laws.EncodeSelectsRow.sb a b c
  | .sh a b c => Laws.EncodeSelectsRow.sh a b c
  | .sw a b c => Laws.EncodeSelectsRow.sw a b c
  | .add a b c => Laws.EncodeSelectsRow.add a b c
  | .sub a b c => Laws.EncodeSelectsRow.sub a b c
  | .sll a b c => Laws.EncodeSelectsRow.sll a b c
  | .slt a b c => Laws.EncodeSelectsRow.slt a b c
  | .sltu a b c => Laws.EncodeSelectsRow.sltu a b c
  | .xor a b c => Laws.EncodeSelectsRow.xor a b c
  | .srl a b c => Laws.EncodeSelectsRow.srl a b c
  | .sra a b c => Laws.EncodeSelectsRow.sra a b c
  | .or a b c => Laws.EncodeSelectsRow.or a b c
  | .and a b c => Laws.EncodeSelectsRow.and a b c

/-- The encoding holds every operand, the dropped bit 0 of an even offset included. -/
theorem withFieldsOf_encode {i : Instr} (h : i.wellFormed = true) : i.withFieldsOf (encode i) = i := by
  cases i
  case jal => simp [Instr.withFieldsOf, encode, insnOffsetJ_encodeJ _ _ _ h]
  case beq | bne | blt | bge | bltu | bgeu => simp [Instr.withFieldsOf, encode, insnOffsetB_encodeB _ _ _ _ _ h]
  all_goals simp [Instr.withFieldsOf, encode]

/-- Settles O2: the encoding satisfies the row of `i` and holds its operands. -/
theorem decodeOfEncodeIsTheInstruction : Obligations.DecodeOfEncodeIsTheInstruction :=
  fun i h => decode_eq_ok_iff.mpr ⟨encode_and_mask i, withFieldsOf_encode h⟩

/-! ### Encoding what was decoded (R82 to R87, R96) -/

theorem slice_append_slice (insn : Word) {lo len hi n : Nat} (h : hi = lo + len) :
    slice insn hi n ++ slice insn lo len = slice insn lo (n + len) :=
  BitVec.extractLsb'_append_extractLsb'_eq_extractLsb' h

theorem slice_and_keep (insn : Word) {m : Word} {lo len : Nat}
    (h : m.extractLsb' lo len = BitVec.allOnes len := by decide) : slice (insn &&& m) lo len = slice insn lo len := by
  rw [slice, BitVec.extractLsb'_and, h, BitVec.and_allOnes, slice]

theorem slice_and_clear (insn : Word) {m : Word} {lo len : Nat}
    (h : m.extractLsb' lo len = 0#len := by decide) : slice (insn &&& m) lo len = 0#len := by
  rw [slice, BitVec.extractLsb'_and, h, BitVec.and_zero]

theorem encodeU_eq_of_fields {w : Word} {imm20 : BitVec 20} {rd : Reg} {op : BitVec 7} (himm : insnImm20 w = imm20)
    (hrd : insnRd w = rd) (hop : insnOpcode w = op) : encodeU imm20 rd op = w := by
  subst himm hrd hop
  simp (disch := decide) only [encodeU, insnImm20, insnRd, insnOpcode, slice_append_slice]
  exact BitVec.extractLsb'_eq_self

theorem encodeI_eq_of_fields {w : Word} {imm : BitVec 12} {rs1 rd : Reg} {f3 : BitVec 3} {op : BitVec 7}
    (himm : insnImmI w = imm) (hrs1 : insnRs1 w = rs1) (hf3 : insnFunct3 w = f3) (hrd : insnRd w = rd)
    (hop : insnOpcode w = op) : encodeI imm rs1 f3 rd op = w := by
  subst himm hrs1 hf3 hrd hop
  simp (disch := decide) only [encodeI, insnImmI, insnRs1, insnFunct3, insnRd, insnOpcode, slice_append_slice]
  exact BitVec.extractLsb'_eq_self

theorem encodeR_eq_of_fields {w : Word} {f7 op : BitVec 7} {rs2 rs1 rd : Reg} {f3 : BitVec 3}
    (hf7 : insnFunct7 w = f7) (hrs2 : insnRs2 w = rs2) (hrs1 : insnRs1 w = rs1) (hf3 : insnFunct3 w = f3)
    (hrd : insnRd w = rd) (hop : insnOpcode w = op) : encodeR f7 rs2 rs1 f3 rd op = w := by
  subst hf7 hrs2 hrs1 hf3 hrd hop
  simp (disch := decide) only [encodeR, insnFunct7, insnRs2, insnRs1, insnFunct3, insnRd, insnOpcode,
    slice_append_slice]
  exact BitVec.extractLsb'_eq_self

theorem encodeS_eq_of_fields {w : Word} {imm : BitVec 12} {rs2 rs1 : Reg} {f3 : BitVec 3} {op : BitVec 7}
    (himm : insnImmS w = imm) (hrs2 : insnRs2 w = rs2) (hrs1 : insnRs1 w = rs1) (hf3 : insnFunct3 w = f3)
    (hop : insnOpcode w = op) : encodeS imm rs2 rs1 f3 op = w := by
  have hhi : (insnImmS w).extractLsb' 5 7 = slice w 25 7 := BitVec.extractLsb'_append_eq_left
  have hlo : (insnImmS w).extractLsb' 0 5 = slice w 7 5 := BitVec.extractLsb'_append_eq_right
  subst himm hrs2 hrs1 hf3 hop
  simp (disch := decide) only [encodeS, hhi, hlo, insnRs2, insnRs1, insnFunct3, insnOpcode, slice_append_slice]
  exact BitVec.extractLsb'_eq_self

theorem encodeJ_eq_of_fields {w : Word} {offset : BitVec 21} {rd : Reg} {op : BitVec 7}
    (hoff : insnOffsetJ w = offset) (hrd : insnRd w = rd) (hop : insnOpcode w = op) : encodeJ offset rd op = w := by
  subst hoff hrd hop
  simp (disch := decide) only [encodeJ, insnOffsetJ, insnRd, insnOpcode, BitVec.extractLsb'_append_eq_of_le,
    BitVec.extractLsb'_append_eq_of_add_le, Nat.reduceSub, BitVec.extractLsb'_eq_self, slice_append_slice]
  exact BitVec.extractLsb'_eq_self

theorem encodeB_eq_of_fields {w : Word} {offset : BitVec 13} {rs2 rs1 : Reg} {f3 : BitVec 3} {op : BitVec 7}
    (hoff : insnOffsetB w = offset) (hrs2 : insnRs2 w = rs2) (hrs1 : insnRs1 w = rs1) (hf3 : insnFunct3 w = f3)
    (hop : insnOpcode w = op) : encodeB offset rs2 rs1 f3 op = w := by
  subst hoff hrs2 hrs1 hf3 hop
  simp (disch := decide) only [encodeB, insnOffsetB, insnRs2, insnRs1, insnFunct3, insnOpcode,
    BitVec.extractLsb'_append_eq_of_le, BitVec.extractLsb'_append_eq_of_add_le, Nat.reduceSub,
    BitVec.extractLsb'_eq_self, slice_append_slice]
  exact BitVec.extractLsb'_eq_self

/-- The one bit of funct7 that SRLI and SRAI look at is insn[30] (R93). -/
theorem insnFunct7_and_bit5 (insn : Word) : insnFunct7 insn &&& 0x20#7 = (insnArith insn).setWidth 7 <<< 5 := by
  apply BitVec.eq_of_getLsbD_eq
  intro i hi
  simp only [insnFunct7, insnArith, slice, BitVec.getLsbD_and, BitVec.getLsbD_shiftLeft, BitVec.getLsbD_setWidth,
    BitVec.getLsbD_extractLsb']
  interval_cases i <;> simp

theorem insnFunct7_and_shiftMask (insn : Word) :
    insnFunct7 (insn &&& 0x41FFFFFF#32) = (insnArith insn).setWidth 7 <<< 5 := by
  rw [← insnFunct7_and_bit5, insnFunct7, slice, BitVec.extractLsb'_and]
  rfl

/-- The fields of a word that satisfies the row of `i` encode to that word, 0 in the bits R96 leaves uninspected. -/
theorem encode_withFieldsOf {insn : Word} (i : Instr) (h : insn &&& i.row.mask = i.row.pattern) :
    encode (i.withFieldsOf insn) = insn &&& i.inspectedMask := by
  have whole : insn &&& 0xFFFFFFFF#32 = insn := BitVec.and_allOnes
  cases i <;> simp only [Instr.row, Instr.inspectedMask] at h ⊢
  case lui | auipc =>
    have hop := (mask_opcode (by decide) insn).mp h
    exact (encodeU_eq_of_fields rfl rfl hop).trans whole.symm
  case jal =>
    have hop := (mask_opcode (by decide) insn).mp h
    exact (encodeJ_eq_of_fields rfl rfl hop).trans whole.symm
  case beq | bne | blt | bge | bltu | bgeu =>
    obtain ⟨hop, hf3⟩ := (mask_opcode_funct3 (by decide) insn).mp h
    exact (encodeB_eq_of_fields rfl rfl rfl hf3 hop).trans whole.symm
  case lb | lh | lw | lbu | lhu | addi | slti | sltiu | xori | ori | andi =>
    obtain ⟨hop, hf3⟩ := (mask_opcode_funct3 (by decide) insn).mp h
    exact (encodeI_eq_of_fields rfl rfl hf3 rfl hop).trans whole.symm
  case sb | sh | sw =>
    obtain ⟨hop, hf3⟩ := (mask_opcode_funct3 (by decide) insn).mp h
    exact (encodeS_eq_of_fields rfl rfl rfl hf3 hop).trans whole.symm
  case add | sub | sll | slt | sltu | xor | srl | sra | or | and =>
    obtain ⟨hop, hf3, hf7⟩ := (mask_register (by decide) insn).mp h
    exact (encodeR_eq_of_fields hf7 rfl rfl hf3 rfl hop).trans whole.symm
  case jalr =>
    have hop := (mask_opcode (by decide) insn).mp h
    exact encodeI_eq_of_fields (slice_and_keep insn) (slice_and_keep insn) (slice_and_clear insn)
      (slice_and_keep insn) ((slice_and_keep insn).trans hop)
  case slli =>
    obtain ⟨hop, hf3⟩ := (mask_opcode_funct3 (by decide) insn).mp h
    exact encodeR_eq_of_fields (slice_and_clear insn) (slice_and_keep insn) (slice_and_keep insn)
      ((slice_and_keep insn).trans hf3) (slice_and_keep insn) ((slice_and_keep insn).trans hop)
  case srli | srai =>
    obtain ⟨hop, hf3, harith⟩ := (mask_shift (by decide) insn).mp h
    have hf7 := insnFunct7_and_shiftMask insn
    rw [harith] at hf7
    exact encodeR_eq_of_fields hf7 (slice_and_keep insn) (slice_and_keep insn)
      ((slice_and_keep insn).trans hf3) (slice_and_keep insn) ((slice_and_keep insn).trans hop)

/-- Settles O3: the fields of the word, put together again, are the word's inspected bits. -/
theorem encodeOfDecodeKeepsEveryInspectedBit : Obligations.EncodeOfDecodeKeepsEveryInspectedBit := by
  intro insn i h
  rw [← encode_withFieldsOf i (row_of_decode h), withFieldsOf_of_decode h]

/-- Settles O4: the decoder's offsets end in a 0 bit. -/
theorem decodedInstructionsAreWellFormed : Obligations.DecodedInstructionsAreWellFormed :=
  fun _ _ h => wellFormed_of_decode h

/-! ### The rows of the opcode map (R94, R95) -/

/-- One instruction of each row, in the order of the table. -/
def oneOfEachRow : List Instr :=
  [.lui 0 0, .auipc 0 0, .jal 0 0, .beq 0 0 0, .bne 0 0 0, .blt 0 0 0, .bge 0 0 0, .bltu 0 0 0, .bgeu 0 0 0, .lb 0 0 0,
   .lh 0 0 0, .lw 0 0 0, .lbu 0 0 0, .lhu 0 0 0, .addi 0 0 0, .slti 0 0 0, .sltiu 0 0 0, .xori 0 0 0, .ori 0 0 0,
   .andi 0 0 0, .slli 0 0 0, .srli 0 0 0, .srai 0 0 0, .jalr 0 0 0, .sb 0 0 0, .sh 0 0 0, .sw 0 0 0, .add 0 0 0,
   .sub 0 0 0, .sll 0 0 0, .slt 0 0 0, .sltu 0 0 0, .xor 0 0 0, .srl 0 0 0, .sra 0 0 0, .or 0 0 0, .and 0 0 0]

theorem map_row_oneOfEachRow : oneOfEachRow.map Instr.row = opcodeTable := rfl

theorem row_mem_opcodeTable (i : Instr) : i.row ∈ opcodeTable := by
  cases i <;> exact of_decide_eq_true rfl

/-- A row of the table selects the words that decode to an instruction of that row. -/
theorem satisfies_iff_decodes {row : Row} (hrow : row ∈ opcodeTable) (insn : Word) :
    insn &&& row.mask = row.pattern ↔ ∃ i, decode insn = .ok i ∧ i.row = row := by
  constructor
  · intro h
    rw [← map_row_oneOfEachRow] at hrow
    obtain ⟨i, -, rfl⟩ := List.mem_map.mp hrow
    exact ⟨_, decode_of_row i h, row_withFieldsOf insn i⟩
  · rintro ⟨i, hd, rfl⟩
    exact row_of_decode hd

theorem decode_error_of_no_row {insn : Word} (h : ∀ row ∈ opcodeTable, insn &&& row.mask ≠ row.pattern) :
    ∃ why, decode insn = .error why := by
  cases hd : decode insn with
  | error why => exact ⟨why, rfl⟩
  | ok i => exact absurd (row_of_decode hd) (h _ (row_mem_opcodeTable i))

/-- Settles O5: a word that satisfies a row decodes, and the row of what it decodes to is in the table. -/
theorem opcodeMapSelectsTheInstruction : Obligations.OpcodeMapSelectsTheInstruction :=
  ⟨fun _ hrow => satisfies_iff_decodes hrow, fun _ => decode_error_of_no_row, rfl⟩

theorem opcodeTable_nodup : opcodeTable.Nodup := by decide

/-- Settles O6: decode answers one instruction, of one row, and the rows are distinct. -/
theorem noWordMatchesTwoRows : Obligations.NoWordMatchesTwoRows := by
  refine opcodeTable_nodup.imp_of_mem ?_
  rintro a b ha hb hne insn ⟨hia, hib⟩
  obtain ⟨i, hi, rfl⟩ := (satisfies_iff_decodes ha insn).mp hia
  obtain ⟨j, hj, rfl⟩ := (satisfies_iff_decodes hb insn).mp hib
  exact hne (congrArg Instr.row (Except.ok.inj (hi.symm.trans hj)))

/-! ### The unmatched words (R97) -/

theorem handleBranch_eq_none {insn : Word} (hop : insnOpcode insn = 0x63#7) :
    handleBranch insn = none ↔ insnFunct3 insn ∈ [2#3, 3#3] := by
  obtain h | h | h | h | h | h | h | h := funct3_cases (insnFunct3 insn) <;> simp [handleBranch, hop, h]

theorem handleLoad_eq_none {insn : Word} (hop : insnOpcode insn = 0x03#7) :
    handleLoad insn = none ↔ insnFunct3 insn ∈ [3#3, 6#3, 7#3] := by
  obtain h | h | h | h | h | h | h | h := funct3_cases (insnFunct3 insn) <;> simp [handleLoad, hop, h]

theorem handleStore_eq_none {insn : Word} (hop : insnOpcode insn = 0x23#7) :
    handleStore insn = none ↔ insnFunct3 insn ∈ [3#3, 4#3, 5#3, 6#3, 7#3] := by
  obtain h | h | h | h | h | h | h | h := funct3_cases (insnFunct3 insn) <;> simp [handleStore, hop, h]

theorem handleAluImmediate_ne_none {insn : Word} (hop : insnOpcode insn = 0x13) :
    handleAluImmediate insn ≠ none := by
  rw [handleAluImmediate, if_pos hop]
  split_ifs <;> exact Option.some_ne_none _

theorem handleAluRegister_eq_none {insn : Word} (hop : insnOpcode insn = 0x33#7) :
    handleAluRegister insn = none ↔
      insnFunct7 insn ∉ [0x00#7, 0x20#7] ∨ (insnFunct7 insn = 0x20#7 ∧ insnFunct3 insn ∉ [0#3, 5#3]) := by
  by_cases h00 : insnFunct7 insn = 0x00#7
  · obtain h | h | h | h | h | h | h | h := funct3_cases (insnFunct3 insn) <;> simp [handleAluRegister, hop, h, h00]
  by_cases h20 : insnFunct7 insn = 0x20#7
  · obtain h | h | h | h | h | h | h | h := funct3_cases (insnFunct3 insn) <;> simp [handleAluRegister, hop, h, h20]
  · simp [handleAluRegister, hop, h00, h20]

/-- No handler answers exactly the words of R97: the handler of the word's opcode declines it, or there is none. -/
theorem matchWord_eq_none_iff (insn : Word) : matchWord insn = none ↔
    insnOpcode insn ∉ [0x37#7, 0x17#7, 0x6F#7, 0x63#7, 0x03#7, 0x13#7, 0x67#7, 0x23#7, 0x33#7] ∨
      (insnOpcode insn = 0x63#7 ∧ insnFunct3 insn ∈ [2#3, 3#3]) ∨
      (insnOpcode insn = 0x03#7 ∧ insnFunct3 insn ∈ [3#3, 6#3, 7#3]) ∨
      (insnOpcode insn = 0x23#7 ∧ insnFunct3 insn ∈ [3#3, 4#3, 5#3, 6#3, 7#3]) ∨
      (insnOpcode insn = 0x33#7 ∧
        (insnFunct7 insn ∉ [0x00#7, 0x20#7] ∨ (insnFunct7 insn = 0x20#7 ∧ insnFunct3 insn ∉ [0#3, 5#3]))) := by
  by_cases hmem : insnOpcode insn ∈ [0x37#7, 0x17#7, 0x6F#7, 0x63#7, 0x03#7, 0x13#7, 0x67#7, 0x23#7, 0x33#7]
  · simp only [List.mem_cons, List.not_mem_nil, or_false] at hmem
    obtain hop | hop | hop | hop | hop | hop | hop | hop | hop := hmem
    · simp [matchWord_0x37 hop, handleUpper, hop]
    · simp [matchWord_0x17 hop, handleUpper, hop]
    · simp [matchWord_0x6F hop, handleJal, hop]
    · simp [matchWord_0x63 hop, handleBranch_eq_none hop, hop]
    · simp [matchWord_0x03 hop, handleLoad_eq_none hop, hop]
    · simp [matchWord_0x13 hop, handleAluImmediate_ne_none hop, hop]
    · simp [matchWord_0x67 hop, handleJalr, hop]
    · simp [matchWord_0x23 hop, handleStore_eq_none hop, hop]
    · simp [matchWord_0x33 hop, handleAluRegister_eq_none hop, hop]
  · simp only [matchWord_other hmem, hmem, not_false_eq_true, true_or]

/-- Settles O7: the fields the statement cuts out of the word are the decoder's. -/
theorem unmatchedSetIsExactlyTheListedWords : Obligations.UnmatchedSetIsExactlyTheListedWords :=
  fun insn => decode_error_iff.trans (matchWord_eq_none_iff insn)

/-! ### The signed values of the immediates (R89 to R92) -/

theorem toInt_sextWord {n : Nat} (h : n ≤ 32) (v : BitVec n) : (sextWord v).toInt = v.toInt :=
  BitVec.toInt_signExtend_of_le h

theorem toInt_bit (b : BitVec 1) : b.toInt = -b.toNat := by
  obtain rfl | rfl := BitVec.eq_zero_or_eq_one b <;> rfl

theorem toInt_append_of_pos {m n : Nat} (hm : 0 < m) (v : BitVec m) (w : BitVec n) :
    (v ++ w).toInt = 2 ^ n * v.toInt + w.toNat := by
  rw [BitVec.toInt_append, if_neg (by simpa using hm.ne')]

/-- A top bit in front of `v` counts -2^n. -/
theorem toInt_bit_append {n : Nat} (b : BitVec 1) (v : BitVec n) : (b ++ v).toInt = v.toNat - 2 ^ n * b.toNat := by
  rw [toInt_append_of_pos (by decide), toInt_bit]
  ring

theorem toInt_insnOffsetJ (insn : Word) : (insnOffsetJ insn).toInt =
    2 * ((slice insn 21 10).toNat : Int) + 2 ^ 11 * (slice insn 20 1).toNat + 2 ^ 12 * (slice insn 12 8).toNat -
      2 ^ 20 * (slice insn 31 1).toNat := by
  simp (disch := decide) only [insnOffsetJ, toInt_append_of_pos, toInt_bit, BitVec.toNat_zero, Nat.cast_zero]
  ring

theorem toInt_insnOffsetB (insn : Word) : (insnOffsetB insn).toInt =
    2 * ((slice insn 8 4).toNat : Int) + 2 ^ 5 * (slice insn 25 6).toNat + 2 ^ 11 * (slice insn 7 1).toNat -
      2 ^ 12 * (slice insn 31 1).toNat := by
  simp (disch := decide) only [insnOffsetB, toInt_append_of_pos, toInt_bit, BitVec.toNat_zero, Nat.cast_zero]
  ring

theorem toInt_insnImmI (insn : Word) : (insnImmI insn).toInt =
    ((slice insn 20 11).toNat : Int) - 2 ^ 11 * (slice insn 31 1).toNat := by
  have hsplit : insnImmI insn = slice insn 31 1 ++ slice insn 20 11 :=
    (slice_append_slice insn (lo := 20) (len := 11) rfl).symm
  rw [hsplit, toInt_bit_append]

theorem toInt_insnImmS (insn : Word) : (insnImmS insn).toInt =
    ((slice insn 7 5).toNat : Int) + 2 ^ 5 * (slice insn 25 6).toNat - 2 ^ 11 * (slice insn 31 1).toNat := by
  have hsplit : slice insn 25 7 = slice insn 31 1 ++ slice insn 25 6 :=
    (slice_append_slice insn (lo := 25) (len := 6) rfl).symm
  rw [insnImmS, toInt_append_of_pos (by decide), hsplit, toInt_bit_append]
  ring

/-- Settles O8: the decoded immediate is the word's field, and its top bit counts negative. -/
theorem immediatesHaveTheValuesOfTheirBits : Obligations.ImmediatesHaveTheValuesOfTheirBits := by
  refine ⟨fun insn rd off h => ?_, fun insn rs1 rs2 off h => ?_, fun insn rd rs1 imm h => ?_,
    fun insn rs1 rs2 imm h => ?_⟩
  · cases withFieldsOf_of_decode h
    exact (toInt_sextWord (by decide) _).trans (toInt_insnOffsetJ insn)
  · have hoff : insnOffsetB insn = off := by
      obtain h | h | h | h | h | h := h <;> cases withFieldsOf_of_decode h <;> rfl
    subst hoff
    exact (toInt_sextWord (by decide) _).trans (toInt_insnOffsetB insn)
  · have himm : insnImmI insn = imm := by
      obtain h | h | h | h | h | h | h | h | h | h | h | h := h <;> cases withFieldsOf_of_decode h <;> rfl
    subst himm
    exact (toInt_sextWord (by decide) _).trans (toInt_insnImmI insn)
  · have himm : insnImmS insn = imm := by
      obtain h | h | h := h <;> cases withFieldsOf_of_decode h <;> rfl
    subst himm
    exact (toInt_sextWord (by decide) _).trans (toInt_insnImmS insn)

/-! ### The extractor (R111 to R116) -/

theorem extractBits_natCast (value : Word) {low high : Nat} (h : low ≤ high) (h31 : high ≤ 31) :
    extractBits value (.int low) (.int high) = .ok (value.toNat / 2 ^ low % 2 ^ (high - low + 1)) := by
  rw [extractBits_eq_slice value h h31, slice, BitVec.extractLsb'_toNat, Nat.shiftRight_eq_div_pow]

theorem extractBits_outOfRange (value : Word) {l h : Int} (hr : l < 0 ∨ 31 < l ∨ h < 0 ∨ 31 < h) :
    extractBits value (.int l) (.int h) = .error .outOfRange :=
  if_pos hr

theorem extractBits_lowGtHigh (value : Word) {l h : Int} (hr : ¬ (l < 0 ∨ 31 < l ∨ h < 0 ∨ 31 < h)) (hlt : h < l) :
    extractBits value (.int l) (.int h) = .error .lowGtHigh :=
  (if_neg hr).trans (if_pos hlt)

/-- Settles O9: indices in range are naturals; the full width is the whole word. -/
theorem extractorReturnsTheRangeUnsigned : Obligations.ExtractorReturnsTheRangeUnsigned := by
  constructor
  · intro value low high h0 hle h31
    lift low to Nat using h0
    lift high to Nat using by omega
    have hlen : ((high : Int) - low + 1).toNat = high - low + 1 := by omega
    rw [extractBits_natCast value (by omega) (by omega), hlen, Int.toNat_natCast]
  · intro x
    have h := extractBits_eq_slice x (low := 0) (high := 31) (by decide) (by decide)
    rwa [slice, BitVec.extractLsb'_eq_self] at h

/-- Settles O10: each check, by the form of the two indices. -/
theorem extractorReportsTheFirstFailedCheck : Obligations.ExtractorReportsTheFirstFailedCheck := by
  intro value low high
  constructor
  · rintro (rfl | rfl)
    · rfl
    · cases low <;> rfl
  · rintro l h rfl rfl
    exact ⟨extractBits_outOfRange value, fun _ _ _ _ => extractBits_lowGtHigh value (by omega)⟩

theorem toNat_append_add {m n : Nat} (v : BitVec m) (w : BitVec n) : (v ++ w).toNat = 2 ^ n * v.toNat + w.toNat := by
  rw [BitVec.toNat_append, ← Nat.shiftLeft_add_eq_or_of_lt w.isLt, Nat.shiftLeft_eq, Nat.mul_comm]

theorem toNat_insnOffsetJ (insn : Word) : (insnOffsetJ insn).toNat =
    2 ^ 20 * (slice insn 31 1).toNat + 2 ^ 12 * (slice insn 12 8).toNat + 2 ^ 11 * (slice insn 20 1).toNat +
      2 * (slice insn 21 10).toNat := by
  simp only [insnOffsetJ, toNat_append_add, BitVec.toNat_ofNat]
  omega

theorem toNat_insnOffsetB (insn : Word) : (insnOffsetB insn).toNat =
    2 ^ 12 * (slice insn 31 1).toNat + 2 ^ 11 * (slice insn 7 1).toNat + 2 ^ 5 * (slice insn 25 6).toNat +
      2 * (slice insn 8 4).toNat := by
  simp only [insnOffsetB, toNat_append_add, BitVec.toNat_ofNat]
  omega

theorem toNat_insnImmS (insn : Word) :
    (insnImmS insn).toNat = 2 ^ 5 * (slice insn 25 7).toNat + (slice insn 7 5).toNat :=
  toNat_append_add _ _

/-- Settles O11: each pair of R116 is a slice, the J, B and S immediates are sums of slices, and the ports cannot be out
of range. -/
theorem decoderExtractionsNeverFail : Obligations.DecoderExtractionsNeverFail := by
  intro insn
  have piece {low high : Nat} (h : low ≤ high := by decide) (h31 : high ≤ 31 := by decide) :
      extractBits insn (.int low) (.int high) = .ok (slice insn low (high - low + 1)).toNat :=
    extractBits_eq_slice insn h h31
  refine ⟨piece, piece, piece, piece, piece, piece, piece, piece, piece, piece, ?offsetJ, ?offsetB, ?immS, ?ordered,
    ?swapped⟩
  case offsetJ => exact ⟨_, _, _, _, piece, piece, piece, piece, toNat_insnOffsetJ insn⟩
  case offsetB => exact ⟨_, _, _, _, piece, piece, piece, piece, toNat_insnOffsetB insn⟩
  case immS => exact ⟨_, _, piece, piece, toNat_insnImmS insn⟩
  case ordered => exact fun low high h => extractBits_natCast insn h (by omega)
  case swapped => exact fun low high h => extractBits_lowGtHigh insn (by omega) (by omega)

end Sys2Proof

/-! Proofs of the statements about the step (spec/40_step.md): the word it fetches, the instruction it runs, that it
always answers under the policy nop, and that what it answers depends on the visible state alone. -/

namespace Sys2Proof.Machine

open Sys2Proof.Claims

/-! ### Fetch (R122) -/

theorem byteAt_add (s : State) (a b : Word) :
    s.byteAt (a + b) = s.mem.read ((a.toNat + b.toNat) % s.memBytes) := by
  rw [State.byteAt, cellOf_add]

/-- Settles O13: the word is its four bytes appended, and N divides 2^32, so each sum may be reduced modulo N
at once. -/
theorem fetchReadsFourBytesAtPcModuloN : Obligations.FetchReadsFourBytesAtPcModuloN := by
  intro s
  have hword : s.fetch.toNat = 2 ^ 8 * (2 ^ 8 * (2 ^ 8 * (s.byteAt (s.pc + 3)).toNat + (s.byteAt (s.pc + 2)).toNat) +
      (s.byteAt (s.pc + 1)).toNat) + (s.byteAt s.pc).toNat := by
    rw [State.fetch, memRead_word, toNat_append_add, toNat_append_add, toNat_append_add]
  rw [byteAt_add, byteAt_add, byteAt_add, State.byteAt, State.cellOf] at hword
  rw [hword]
  simp only [BitVec.reduceToNat]
  omega

theorem fetch_eq_of_bytes {s : State} {insn : Word}
    (h : ∀ k, k < 4 → s.byteAt (s.pc + BitVec.ofNat 32 k) = insn.extractLsb' (8 * k) 8) : s.fetch = insn := by
  have hread : s.fetch.toNat = insn.toNat % 2 ^ 32 := toNat_memRead_of_lowBytes (w := .word) h
  exact BitVec.eq_of_toNat_eq (hread.trans (Nat.mod_eq_of_lt insn.isLt))

/-! ### What a step runs (R121, R124) -/

/-- Settles O12: the four bytes are the fetched word. -/
theorem stepRunsTheDecodedInstruction : Obligations.StepRunsTheDecodedInstruction := by
  intro s insn i hbytes hd
  exact step_eq_exec (fetch_eq_of_bytes hbytes ▸ hd)

theorem step_eq_unmatched {s : State} {why : Reject} (h : decode s.fetch = .error why) :
    step s = unmatched s.fetch s := by
  rw [step, h]

/-! ### JAL x0,0 (R128) -/

@[simp] theorem commit_pc_self (s : State) : s.commit s.pc = s := rfl

@[simp] theorem jumpAndLink_zero (s : State) (target : Word) : s.jumpAndLink 0 target = s.commit target := rfl

@[simp] theorem pcTarget_zero (s : State) {n : Nat} : s.pcTarget (0 : BitVec n) = s.pc := by
  have hzero : sextWord (0 : BitVec n) = 0 := BitVec.eq_of_toInt_eq (by simp [sextWord, BitVec.toInt_signExtend])
  rw [State.pcTarget, hzero]
  exact BitVec.add_zero s.pc

theorem exec_jal (s : State) (rd : Reg) (offset : BitVec 21) :
    exec (.jal rd offset) s = .next (s.jumpAndLink rd (s.pcTarget offset)) := rfl

theorem decode_jumpToSelf : decode 0x0000006F = .ok (.jal 0 0) := by decide

/-- Settles O19: the link is discarded and the target is the pc itself. -/
theorem jumpToSelfLeavesTheWholeState : Obligations.JumpToSelfLeavesTheWholeState := by
  intro s hf
  have hd : decode s.fetch = .ok (.jal 0 0) := hf ▸ decode_jumpToSelf
  rw [step_eq_exec hd, exec_jal, jumpAndLink_zero, pcTarget_zero, commit_pc_self]

/-! ### A step always answers, but for an unmatched word under the policy fault (R127) -/

theorem step_answers_of_nop {s : State} (h : s.params.unmatchedPolicy = .nop) : ∃ t, step s = .next t :=
  step_answers fun _ _ => h

theorem step_answers_iff_of_fault {s : State} (h : s.params.unmatchedPolicy = .fault) :
    (∃ t, step s = .next t) ↔ ∃ i, decode s.fetch = .ok i := by
  constructor
  · rintro ⟨t, ht⟩
    obtain ⟨i, hd, -⟩ | ⟨-, -, hnop, -⟩ := step_cases ht
    · exact ⟨i, hd⟩
    · cases h.symm.trans hnop
  · rintro ⟨i, hd⟩
    rw [step_eq_exec hd]
    exact exec_answers i s

theorem unmatched_ne_refused (insn : Word) (s : State) (r : Refusal) : unmatched insn s ≠ .refused r := by
  unfold unmatched
  split
  · nofun
  · nofun

theorem step_ne_refused (s : State) (r : Refusal) : step s ≠ .refused r := by
  cases hd : decode s.fetch with
  | ok i =>
    obtain ⟨t, ht⟩ := exec_answers i s
    rw [step_eq_exec hd, ht]
    nofun
  | error why =>
    rw [step_eq_unmatched hd]
    exact unmatched_ne_refused s.fetch s r

/-! ### Runs (R128) -/

theorem run_succ_of_step {M : Host.Core} {s t : M.State} (h : M.step s = .next t) (n : Nat) :
    M.run (n + 1) s = M.run n t := by
  rw [Host.Core.run, h]

/-- Settles O18: a step answers and keeps the policy, so the rest of the run starts under it too. -/
theorem runsNeverStopUnderTheDocumentedPolicy : Obligations.RunsNeverStopUnderTheDocumentedPolicy := by
  intro s hs n
  induction n generalizing s with
  | zero => exact ⟨s, rfl⟩
  | succ n ih =>
    obtain ⟨t, ht⟩ := step_answers_of_nop hs
    obtain ⟨hparams, -⟩ := onlyStoresChangeMemoryAndOnlyTheirBytes s t ht
    obtain ⟨u, hu⟩ := ih t (hparams ▸ hs)
    exact ⟨u, (run_succ_of_step (M := core) ht n).trans hu⟩

/-! ### The visible state decides the step (R127) -/

/-- `s` and `t` differ in no more than the stored slot of x0, which no read port shows (R22). -/
structure SameVisible (s t : State) : Prop extends SameButRegisters s t where
  registers : ∀ r, s.x r = t.x r

theorem SameButRegisters.fetch {s₁ s₂ : State} (h : SameButRegisters s₁ s₂) : s₁.fetch = s₂.fetch := by
  rw [State.fetch, h.memRead, h.pc, State.fetch]

namespace SameVisible

variable {s₁ s₂ t₁ : State}

/-- The destination gets the same value in both states; any other register keeps the one it had. -/
theorem exec_congr {i : Instr} (h : SameVisible s₁ s₂) (h₁ : exec i s₁ = .next t₁) :
    ∃ t₂, exec i s₂ = .next t₂ ∧ SameVisible t₁ t₂ := by
  obtain ⟨t₁', t₂, h₁', h₂, same, written⟩ := exec_sameEffect h.toSameButRegisters fun r _ => h.registers r
  cases h₁.symm.trans h₁'
  refine ⟨t₂, h₂, same, fun r => ?_⟩
  by_cases hd : destination i = some r
  · exact written r hd
  · rw [exec_x_of_ne h₁ hd, exec_x_of_ne h₂ hd, h.registers r]

theorem step_congr (h : SameVisible s₁ s₂) (h₁ : step s₁ = .next t₁) :
    ∃ t₂, step s₂ = .next t₂ ∧ SameVisible t₁ t₂ := by
  obtain ⟨i, hd, hi⟩ | ⟨why, hd, hnop, rfl⟩ := step_cases h₁
  · rw [step_eq_exec (h.fetch ▸ hd)]
    exact h.exec_congr hi
  · refine ⟨s₂.commit s₂.seqPc, ?_, ?_, h.registers⟩
    · rw [step_eq_unmatched (h.fetch ▸ hd), unmatched, ← h.params, hnop]
    · rw [h.seqPc]
      exact h.commit s₂.seqPc

end SameVisible

/-- Settles O17: `step_answers_iff_of_fault`, `step_ne_refused` and `SameVisible.step_congr`. -/
theorem stepIsTotalAndDeterminedByTheVisibleState : Obligations.StepIsTotalAndDeterminedByTheVisibleState := by
  refine ⟨fun _ => step_answers_of_nop, fun _ => step_answers_iff_of_fault, step_ne_refused, ?_⟩
  intro s₁ s₂ t₁ hpc hmem hparams hx h₁
  have same : SameVisible s₁ s₂ := ⟨⟨hpc, hmem, hparams⟩, hx⟩
  obtain ⟨t₂, h₂, same'⟩ := same.step_congr h₁
  exact ⟨t₂, h₂, same'.pc, same'.mem, same'.params, same'.registers⟩

end Sys2Proof.Machine

/-! Proofs of the statements about LUI and AUIPC (spec/41_upper_immediate.md): the words they are selected by, the
values they write, and what an ADDI after them makes of those values. -/

namespace Sys2Proof.Machine

open Sys2Proof.Claims

/-! ### What a statement about one instruction is put together from -/

/-- The row of an instruction selects it, with the operands of the word (R95). -/
theorem selects_row (i : Instr) : Selects i.row.mask i.row.pattern fun insn => i.withFieldsOf insn :=
  fun _ => decode_of_row i

theorem RegisterResult.x_self {s t : State} {rd : Reg} {v : Word} (h : RegisterResult s t rd v) (hrd : rd ≠ 0) :
    t.x rd = v := by
  rw [h.registers, if_neg hrd, if_pos rfl]

/-- An instruction that ends in `retire` completes, changes no more than `rd` and goes on at pc + 4 (R25, R29). -/
theorem retires_with_result {i : Instr} {s : State} {rd : Reg} {v : Word} (h : exec i s = .next (s.retire rd v)) :
    ∃ t, exec i s = .next t ∧ RegisterResult s t rd v ∧ t.pc = s.pc + 4 :=
  ⟨_, h, retire_result s rd v, retire_pc s rd v⟩

/-! ### The values of LUI, AUIPC and ADDI (R141, R142, R181) -/

theorem immUpper_eq_ofNat (imm20 : BitVec 20) : immUpper imm20 = BitVec.ofNat 32 (imm20.toNat * 4096) := by
  rw [immUpper, BitVec.shiftLeft_eq_mul_twoPow, BitVec.ofNat_mul, BitVec.ofNat_toNat]
  rfl

/-- The field is zero-extended: no bit of it counts negative (R142). -/
theorem immAuipc_unshifted (imm20 : BitVec 20) : immAuipc .unshifted imm20 = BitVec.ofNat 32 imm20.toNat :=
  (BitVec.shiftLeft_zero _).trans (BitVec.ofNat_toNat 32 imm20).symm

theorem immAuipc_rv32i (imm20 : BitVec 20) : immAuipc .rv32i imm20 = BitVec.ofNat 32 (imm20.toNat * 4096) :=
  immUpper_eq_ofNat imm20

theorem add_ofNat (a : Word) (n : Nat) : a + BitVec.ofNat 32 n = BitVec.ofNat 32 (a.toNat + n) := by
  rw [BitVec.ofNat_add, BitVec.ofNat_toNat, BitVec.setWidth_eq]

theorem ofNat_add_sextWord (n : Nat) {k : Nat} (v : BitVec k) :
    BitVec.ofNat 32 n + sextWord v = BitVec.ofInt 32 (n + v.toInt) := by
  rw [BitVec.ofInt_add, BitVec.ofInt_natCast]
  rfl

theorem exec_lui (s : State) (rd : Reg) (imm20 : BitVec 20) :
    exec (.lui rd imm20) s = .next (s.retire rd (BitVec.ofNat 32 (imm20.toNat * 4096))) := by
  rw [← immUpper_eq_ofNat]
  rfl

theorem exec_auipc_unshifted {s : State} (h : s.params.auipcShift = .unshifted) (rd : Reg) (imm20 : BitVec 20) :
    exec (.auipc rd imm20) s = .next (s.retire rd (BitVec.ofNat 32 (s.pc.toNat + imm20.toNat))) := by
  rw [← add_ofNat, ← immAuipc_unshifted, ← h]
  rfl

theorem exec_auipc_rv32i {s : State} (h : s.params.auipcShift = .rv32i) (rd : Reg) (imm20 : BitVec 20) :
    exec (.auipc rd imm20) s = .next (s.retire rd (BitVec.ofNat 32 (s.pc.toNat + imm20.toNat * 4096))) := by
  rw [← add_ofNat, ← immAuipc_rv32i, ← h]
  rfl

theorem exec_addi (s : State) (rd rs1 : Reg) (imm : BitVec 12) :
    exec (.addi rd rs1 imm) s = .next (s.retire rd (s.x rs1 + sextWord imm)) := rfl

/-- Settles O37: `exec_lui` ends in `retire`. -/
theorem luiLoadsTheUpperImmediate : Obligations.LuiLoadsTheUpperImmediate :=
  ⟨selects_row (.lui 0 0), fun rd imm20 s => retires_with_result (exec_lui s rd imm20)⟩

/-- Settles O38: AUIPC ends in `retire` under both values of the parameter. -/
theorem auipcAddsTheFieldShiftedByTheParameter : Obligations.AuipcAddsTheFieldShiftedByTheParameter :=
  ⟨selects_row (.auipc 0 0), fun rd imm20 _ h => retires_with_result (exec_auipc_unshifted h rd imm20),
    fun rd imm20 _ h => retires_with_result (exec_auipc_rv32i h rd imm20)⟩

/-! ### The pairs with ADDI (R143) -/

/-- ADDI rd,rd,lo after an instruction that wrote `n` to `rd` leaves n + lo there. -/
theorem addi_after_retire {i : Instr} {s : State} {rd : Reg} {n : Nat} (hrd : rd ≠ 0)
    (h : exec i s = .next (s.retire rd (BitVec.ofNat 32 n))) (lo : BitVec 12) :
    ∃ t u, exec i s = .next t ∧ exec (.addi rd rd lo) t = .next u ∧ u.x rd = BitVec.ofInt 32 (n + lo.toInt) := by
  refine ⟨_, _, h, exec_addi _ rd rd lo, ?_⟩
  rw [(retire_result _ rd _).x_self hrd, (retire_result s rd _).x_self hrd, ofNat_add_sextWord]

/-- Settles O39: `addi_after_retire` at LUI and at AUIPC. -/
theorem upperImmediatePairsBuildConstants : Obligations.UpperImmediatePairsBuildConstants := by
  intro s rd hi lo hrd
  constructor
  · exact_mod_cast addi_after_retire hrd (exec_lui s rd hi) lo
  · intro h
    exact_mod_cast addi_after_retire hrd (exec_auipc_unshifted h rd hi) lo

end Sys2Proof.Machine

/-! Proofs of the statements about JAL (spec/42_jal.md): the words it is selected by, the link and the target, and the
return that JALR makes of the link. -/

namespace Sys2Proof.Machine

open Sys2Proof.Claims

/-! ### What a statement about a jump is put together from -/

/-- An instruction that ends in `jumpAndLink` completes, writes pc + 4 to `rd` alone and goes on at the target. -/
theorem jumps_with_link {i : Instr} {s : State} {rd : Reg} {target : Word}
    (h : exec i s = .next (s.jumpAndLink rd target)) :
    ∃ t, exec i s = .next t ∧ RegisterResult s t rd (s.pc + 4) ∧ t.pc = target :=
  ⟨_, h, jumpAndLink_result s rd target, jumpAndLink_pc s rd target⟩

theorem exec_jalr (s : State) (rd rs1 : Reg) (imm : BitVec 12) :
    exec (.jalr rd rs1 imm) s = .next (s.jumpAndLink rd (s.jalrTarget rs1 imm)) := rfl

/-! ### JAL (R150) -/

/-- The sum of the pc and a signed offset, over the integers (R89, R90). -/
theorem pcTarget_eq_ofInt (s : State) {n : Nat} (offset : BitVec n) :
    s.pcTarget offset = BitVec.ofInt 32 (s.pc.toNat + offset.toInt) := by
  rw [← ofNat_add_sextWord, BitVec.ofNat_toNat, BitVec.setWidth_eq, State.pcTarget]

/-- Settles O40: JAL ends in `jumpAndLink` at the target `pcTarget`. -/
theorem jalLinksAndJumpsByTheOffset : Obligations.JalLinksAndJumpsByTheOffset := by
  refine ⟨selects_row (.jal 0 0), fun rd offset s => ?_⟩
  rw [← pcTarget_eq_ofInt]
  exact jumps_with_link (exec_jal s rd offset)

/-! ### The return from a call (R151) -/

/-- Clearing bit 0 changes nothing where it is already clear. -/
theorem and_clearBit0_of_even {a : Word} (h : a.getLsbD 0 = false) : a &&& 0xFFFFFFFE = a := by
  have hmask : (0xFFFFFFFE : Word) = ~~~BitVec.twoPow 32 0 := by decide
  rw [hmask]
  ext i hi
  by_cases h0 : i = 0
  · subst h0
    simpa using h
  · simp [h0]

@[simp] theorem effAddr_zero (s : State) (rs1 : Reg) : s.effAddr rs1 0 = s.x rs1 :=
  BitVec.add_zero (s.x rs1)

theorem jalrTarget_zero_of_even {s : State} {rs1 : Reg} (h : (s.x rs1).getLsbD 0 = false) :
    s.jalrTarget rs1 0 = s.x rs1 := by
  rw [State.jalrTarget, effAddr_zero, and_clearBit0_of_even h]

/-- A jump that links nowhere keeps the link of the jump before it and replaces its target. -/
theorem jumpAndLink_then_commit (s : State) (rd : Reg) (target target' : Word) :
    (s.jumpAndLink rd target).commit target' = s.jumpAndLink rd target' := rfl

/-- Settles O42: the link pc + 4 is even, so JALR takes it as its target unchanged, and x0 discards the second link. -/
theorem callAndReturnComeBackAfterTheCall : Obligations.CallAndReturnComeBackAfterTheCall := by
  intro s rd offset hs hrd
  have hlink : (s.jumpAndLink rd (s.pcTarget offset)).x rd = s.pc + 4 := (jumpAndLink_result s rd _).x_self hrd
  have hreturn : exec (.jalr 0 rd 0) (s.jumpAndLink rd (s.pcTarget offset)) = .next (s.jumpAndLink rd (s.pc + 4)) := by
    rw [exec_jalr, jalrTarget_zero_of_even (hlink ▸ seqPc_even hs), hlink, jumpAndLink_zero, jumpAndLink_then_commit]
  exact ⟨_, _, exec_jal s rd offset, hreturn, jumpAndLink_pc s rd _, jumpAndLink_result s rd _⟩

end Sys2Proof.Machine

/-! Proofs of the statements about the branches (spec/43_branches.md): the words they are selected by, the condition each
is taken on, and where each goes on. -/

namespace Sys2Proof.Machine

open Sys2Proof.Claims

/-! ### What a statement about a branch is put together from -/

/-- An instruction that ends in `branch` completes, writes nothing and goes on at the target exactly when `p` (R160). -/
theorem branches_when {i : Instr} {s : State} {taken : Bool} {p : Prop} [Decidable p] {n : Nat} {offset : BitVec n}
    (h : exec i s = .next (s.branch taken (s.pcTarget offset))) (hp : taken = true ↔ p) :
    ∃ t, exec i s = .next t ∧ NoResult s t ∧
      t.pc = if p then BitVec.ofInt 32 (s.pc.toNat + offset.toInt) else s.pc + 4 := by
  refine ⟨_, h, branch_result s taken _, ?_⟩
  rw [branch_pc, pcTarget_eq_ofInt]
  simp only [hp]

section
variable (s : State) (rs1 rs2 : Reg) (offset : BitVec 13)

theorem exec_beq : exec (.beq rs1 rs2 offset) s =
    .next (s.branch (BranchCond.taken .eq (s.x rs1) (s.x rs2)) (s.pcTarget offset)) := rfl

theorem exec_bne : exec (.bne rs1 rs2 offset) s =
    .next (s.branch (BranchCond.taken .ne (s.x rs1) (s.x rs2)) (s.pcTarget offset)) := rfl

theorem exec_blt : exec (.blt rs1 rs2 offset) s =
    .next (s.branch (BranchCond.taken .lt (s.x rs1) (s.x rs2)) (s.pcTarget offset)) := rfl

theorem exec_bge : exec (.bge rs1 rs2 offset) s =
    .next (s.branch (BranchCond.taken .ge (s.x rs1) (s.x rs2)) (s.pcTarget offset)) := rfl

theorem exec_bltu : exec (.bltu rs1 rs2 offset) s =
    .next (s.branch (BranchCond.taken .ltu (s.x rs1) (s.x rs2)) (s.pcTarget offset)) := rfl

theorem exec_bgeu : exec (.bgeu rs1 rs2 offset) s =
    .next (s.branch (BranchCond.taken .geu (s.x rs1) (s.x rs2)) (s.pcTarget offset)) := rfl

end

/-! ### Equality (R161, R162) -/

/-- Settles O43: BEQ and BNE end in `branch`, on the conditions of `taken_eq_iff` and `taken_ne_iff`. -/
theorem equalityBranchesCompareTheTwoRegisters : Obligations.EqualityBranchesCompareTheTwoRegisters := by
  refine ⟨selects_row (.beq 0 0 0), selects_row (.bne 0 0 0), ?beq, ?bne⟩ <;> intro rs1 rs2 offset s
  case beq => exact branches_when (exec_beq s rs1 rs2 offset) (taken_eq_iff _ _)
  case bne => exact branches_when (exec_bne s rs1 rs2 offset) (taken_ne_iff _ _)

/-! ### Order (R163 to R166) -/

/-- Settles O44: the four end in `branch`; BLT and BGE compare `toInt` (signed), BLTU and BGEU `toNat` (unsigned). -/
theorem orderBranchesCompareSignedOrUnsigned : Obligations.OrderBranchesCompareSignedOrUnsigned := by
  refine ⟨selects_row (.blt 0 0 0), selects_row (.bge 0 0 0), selects_row (.bltu 0 0 0), selects_row (.bgeu 0 0 0),
    ?blt, ?bge, ?bltu, ?bgeu⟩ <;> intro rs1 rs2 offset s
  case blt => exact branches_when (exec_blt s rs1 rs2 offset) (taken_lt_iff _ _)
  case bge => exact branches_when (exec_bge s rs1 rs2 offset) (taken_ge_iff _ _)
  case bltu => exact branches_when (exec_bltu s rs1 rs2 offset) (taken_ltu_iff _ _)
  case bgeu => exact branches_when (exec_bgeu s rs1 rs2 offset) (taken_geu_iff _ _)

end Sys2Proof.Machine

/-! Proofs of the statements about the loads (spec/44_loads.md): the words they are selected by, the address they read
at, and the values they write. -/

namespace Sys2Proof.Machine

open Sys2Proof.Claims

/-! ### The effective address (R55, R170) -/

/-- The sum of the base register and the signed displacement, over the integers. -/
theorem effAddr_eq_ofInt (s : State) (rs1 : Reg) (imm : BitVec 12) :
    s.effAddr rs1 imm = BitVec.ofInt 32 ((s.x rs1).toInt + imm.toInt) := by
  rw [BitVec.ofInt_add, BitVec.ofInt_toInt]
  rfl

/-! ### The values of the loads (R131, R171 to R175) -/

/-- What a signed load writes, where the bytes read are those of `v`. -/
theorem loadSigned_of_memRead {s : State} {a : Word} {w : Width} {v : BitVec (8 * w.bytes)}
    (h : s.memRead a w = v.setWidth 32) : s.loadSigned a w = BitVec.ofInt 32 v.toInt := by
  have hw : 8 * w.bytes ≤ 32 := Nat.mul_le_mul_left 8 (width_bytes_le w)
  rw [State.loadSigned, h, BitVec.setWidth_setWidth_of_le v hw, BitVec.setWidth_eq]
  rfl

section
variable (s : State) (a : Word)

theorem loadSigned_byte : s.loadSigned a .byte = BitVec.ofInt 32 (s.byteAt a).toInt :=
  loadSigned_of_memRead (memRead_byte s a)

theorem loadSigned_half : s.loadSigned a .half = BitVec.ofInt 32 (s.byteAt (a + 1) ++ s.byteAt a).toInt :=
  loadSigned_of_memRead (memRead_half s a)

theorem loadUnsigned_byte : s.loadUnsigned a .byte = BitVec.ofNat 32 (s.byteAt a).toNat := by
  rw [State.loadUnsigned, memRead_byte, BitVec.ofNat_toNat]

theorem loadUnsigned_half :
    s.loadUnsigned a .half = BitVec.ofNat 32 ((s.byteAt a).toNat + 2 ^ 8 * (s.byteAt (a + 1)).toNat) := rfl

/-- The four addresses are a, a + 1, a + 2, a + 3, whatever the alignment (R173). -/
theorem loadUnsigned_word :
    s.loadUnsigned a .word = BitVec.ofNat 32 ((s.byteAt a).toNat + 2 ^ 8 * (s.byteAt (a + 1)).toNat +
      2 ^ 16 * (s.byteAt (a + 2)).toNat + 2 ^ 24 * (s.byteAt (a + 3)).toNat) := by
  have hsum : s.loadUnsigned a .word = BitVec.ofNat 32 ((s.byteAt a).toNat + 256 * ((s.byteAt (a + 1)).toNat +
      256 * ((s.byteAt (a + 1 + 1)).toNat + 256 * (s.byteAt (a + 1 + 1 + 1)).toNat))) := rfl
  have h2 : a + 1 + 1 = a + 2 := succ_addr a 1
  have h3 : a + 2 + 1 = a + 3 := BitVec.add_assoc a 2 1
  rw [hsum, h2, h3]
  congr 1
  omega

end

/-! ### What a statement about a load is put together from (R170) -/

section
variable (s : State) (rd rs1 : Reg) (imm : BitVec 12)

theorem exec_lb : exec (.lb rd rs1 imm) s = .next (s.retire rd (s.loadSigned (s.effAddr rs1 imm) .byte)) := rfl

theorem exec_lh : exec (.lh rd rs1 imm) s = .next (s.retire rd (s.loadSigned (s.effAddr rs1 imm) .half)) := rfl

theorem exec_lw : exec (.lw rd rs1 imm) s = .next (s.retire rd (s.loadUnsigned (s.effAddr rs1 imm) .word)) := rfl

theorem exec_lbu : exec (.lbu rd rs1 imm) s = .next (s.retire rd (s.loadUnsigned (s.effAddr rs1 imm) .byte)) := rfl

theorem exec_lhu : exec (.lhu rd rs1 imm) s = .next (s.retire rd (s.loadUnsigned (s.effAddr rs1 imm) .half)) := rfl

end

/-- An instruction that ends in `retire` with what `load` reads at its effective address completes, and writes to `rd`
what `value` says of that address. -/
theorem loads_at {i : Instr} {s : State} {rd rs1 : Reg} {imm : BitVec 12} {load value : Word → Word}
    (h : exec i s = .next (s.retire rd (load (s.effAddr rs1 imm)))) (hv : ∀ a, load a = value a) {a : Word}
    (ha : a = BitVec.ofInt 32 ((s.x rs1).toInt + imm.toInt)) :
    ∃ t, exec i s = .next t ∧ RegisterResult s t rd (value a) ∧ t.pc = s.pc + 4 := by
  rw [← effAddr_eq_ofInt] at ha
  rw [← hv, ha]
  exact retires_with_result h

/-! ### The loads -/

/-- Settles O45: LB and LH end in `retire`, with the values of `loadSigned_byte` and `loadSigned_half`. -/
theorem signedLoadsExtendTheSign : Obligations.SignedLoadsExtendTheSign := by
  refine ⟨selects_row (.lb 0 0 0), selects_row (.lh 0 0 0), ?lb, ?lh⟩ <;> intro rd rs1 imm s a ha
  case lb => exact loads_at (exec_lb s rd rs1 imm) (loadSigned_byte s) ha
  case lh => exact loads_at (exec_lh s rd rs1 imm) (loadSigned_half s) ha

/-- Settles O46: the three end in `retire`; the bytes read at the address and after it are summed by their weights. -/
theorem wordAndUnsignedLoadsReadLittleEndian : Obligations.WordAndUnsignedLoadsReadLittleEndian := by
  refine ⟨selects_row (.lw 0 0 0), selects_row (.lbu 0 0 0), selects_row (.lhu 0 0 0), ?lw, ?lbu, ?lhu⟩ <;>
    intro rd rs1 imm s a ha
  case lw => exact loads_at (exec_lw s rd rs1 imm) (loadUnsigned_word s) ha
  case lbu => exact loads_at (exec_lbu s rd rs1 imm) (loadUnsigned_byte s) ha
  case lhu => exact loads_at (exec_lhu s rd rs1 imm) (loadUnsigned_half s) ha

end Sys2Proof.Machine

/-! Proofs of the statements about the ALU with immediate (spec/45_alu_immediate.md): the words each instruction is
selected by, and the value it writes. -/

namespace Sys2Proof.Machine

open Sys2Proof.Claims

/-! ### What the alu computes, as arithmetic on the two readings of a word (R129, R210) -/

section
variable (a b : Word)

theorem alu_slt : alu .slt a b = if a.toInt < b.toInt then 1 else 0 := by
  simp only [alu, truthWord, signedLess, decide_eq_true_eq]

theorem alu_sltu : alu .sltu a b = if a.toNat < b.toNat then 1 else 0 := by
  simp only [alu, truthWord, unsignedLess, decide_eq_true_eq]

theorem alu_sll : alu .sll a b = BitVec.ofNat 32 (a.toNat * 2 ^ (b.toNat % 32)) := by
  apply BitVec.eq_of_toNat_eq
  rw [alu, BitVec.toNat_shiftLeft, Nat.shiftLeft_eq, BitVec.toNat_ofNat]

theorem alu_srl : alu .srl a b = BitVec.ofNat 32 (a.toNat / 2 ^ (b.toNat % 32)) := by
  rw [alu, ← Nat.shiftRight_eq_div_pow, ← BitVec.toNat_ushiftRight, BitVec.ofNat_toNat, BitVec.setWidth_eq]

/-- Division by a positive power rounds down, for a negative word too: the sign moves in from the left. -/
theorem alu_sra : alu .sra a b = BitVec.ofInt 32 (a.toInt / 2 ^ (b.toNat % 32)) :=
  congrArg (BitVec.ofInt 32) (Int.shiftRight_eq_div_pow a.toInt (b.toNat % 32))

end

/-- A five-bit amount, widened to an operand of the alu, is the amount its shifts use. -/
theorem toNat_shamt_mod (shamt : BitVec 5) : (shamt.setWidth 32).toNat % 32 = shamt.toNat := by
  rw [BitVec.toNat_setWidth_of_le (by decide)]
  exact Nat.mod_eq_of_lt shamt.isLt

/-! ### What a statement about one instruction is put together from -/

/-- An instruction that ends in `retire` with `v` completes and writes whatever `v` is shown to be. -/
theorem retires_with_value {i : Instr} {s : State} {rd : Reg} {v w : Word} (h : exec i s = .next (s.retire rd v))
    (hv : v = w) : ∃ t, exec i s = .next t ∧ RegisterResult s t rd w ∧ t.pc = s.pc + 4 :=
  hv ▸ retires_with_result h

section
variable (s : State) (rd rs1 : Reg) (imm : BitVec 12) (shamt : BitVec 5)

theorem exec_slti : exec (.slti rd rs1 imm) s = .next (s.retire rd (alu .slt (s.x rs1) (sextWord imm))) := rfl

theorem exec_sltiu : exec (.sltiu rd rs1 imm) s = .next (s.retire rd (alu .sltu (s.x rs1) (sextWord imm))) := rfl

theorem exec_xori : exec (.xori rd rs1 imm) s = .next (s.retire rd (s.x rs1 ^^^ imm.signExtend 32)) := rfl

theorem exec_ori : exec (.ori rd rs1 imm) s = .next (s.retire rd (s.x rs1 ||| imm.signExtend 32)) := rfl

theorem exec_andi : exec (.andi rd rs1 imm) s = .next (s.retire rd (s.x rs1 &&& imm.signExtend 32)) := rfl

theorem exec_slli : exec (.slli rd rs1 shamt) s = .next (s.retire rd (alu .sll (s.x rs1) (shamt.setWidth 32))) := rfl

theorem exec_srli : exec (.srli rd rs1 shamt) s = .next (s.retire rd (alu .srl (s.x rs1) (shamt.setWidth 32))) := rfl

theorem exec_srai : exec (.srai rd rs1 shamt) s = .next (s.retire rd (alu .sra (s.x rs1) (shamt.setWidth 32))) := rfl

end

/-! ### The sum (R181) -/

/-- Settles O48: ADDI ends in `retire` with the sum that is also an effective address (`effAddr_eq_ofInt`). -/
theorem addiAddsTheSignedImmediate : Obligations.AddiAddsTheSignedImmediate :=
  ⟨selects_row (.addi 0 0 0), fun rd rs1 imm s =>
    retires_with_value (exec_addi s rd rs1 imm) (effAddr_eq_ofInt s rs1 imm)⟩

/-! ### The comparisons (R182, R183) -/

/-- Settles O49: SLTI and SLTIU end in `retire`; sign extension keeps the signed reading of the immediate
(`toInt_sextWord`), and SLTIU takes the unsigned reading after it. -/
theorem compareImmediatesWriteZeroOrOne : Obligations.CompareImmediatesWriteZeroOrOne := by
  refine ⟨selects_row (.slti 0 0 0), selects_row (.sltiu 0 0 0), ?slti, ?sltiu⟩ <;> intro rd rs1 imm s
  case slti =>
    rw [← toInt_sextWord (by decide) imm]
    exact retires_with_value (exec_slti s rd rs1 imm) (alu_slt _ _)
  case sltiu => exact retires_with_value (exec_sltiu s rd rs1 imm) (alu_sltu _ _)

/-! ### The bitwise operations (R184 to R186) -/

/-- Settles O50: the three end in `retire` with the operation on the sign-extended immediate. -/
theorem logicImmediatesCombineWithTheSignExtendedImmediate :
    Obligations.LogicImmediatesCombineWithTheSignExtendedImmediate := by
  refine ⟨selects_row (.xori 0 0 0), selects_row (.ori 0 0 0), selects_row (.andi 0 0 0), ?xori, ?ori, ?andi⟩ <;>
    intro rd rs1 imm s
  case xori => exact retires_with_result (exec_xori s rd rs1 imm)
  case ori => exact retires_with_result (exec_ori s rd rs1 imm)
  case andi => exact retires_with_result (exec_andi s rd rs1 imm)

/-! ### The shifts (R187 to R189) -/

/-- Settles O51: the three end in `retire` with the alu's shift, whose amount is the whole field
(`toNat_shamt_mod`). -/
theorem shiftImmediatesShiftByTheFiveBitAmount : Obligations.ShiftImmediatesShiftByTheFiveBitAmount := by
  refine ⟨selects_row (.slli 0 0 0), selects_row (.srli 0 0 0), selects_row (.srai 0 0 0), ?slli, ?srli, ?srai⟩ <;>
    intro rd rs1 shamt s <;> rw [← toNat_shamt_mod shamt]
  case slli => exact retires_with_value (exec_slli s rd rs1 shamt) (alu_sll _ _)
  case srli => exact retires_with_value (exec_srli s rd rs1 shamt) (alu_srl _ _)
  case srai => exact retires_with_value (exec_srai s rd rs1 shamt) (alu_sra _ _)

end Sys2Proof.Machine

/-! Proof of the statement about JALR (spec/46_jalr.md): the words it is selected by, the link and the even target. -/

namespace Sys2Proof.Machine

open Sys2Proof.Claims

/-! ### The target (R195) -/

/-- Clearing bit 0 rounds down to a multiple of 2. -/
theorem and_clearBit0_eq_ofNat (a : Word) : a &&& 0xFFFFFFFE = BitVec.ofNat 32 (a.toNat / 2 * 2) := by
  have hmask : (0xFFFFFFFE : Word) = BitVec.allOnes 32 <<< 1 := by decide
  have hnat : a.toNat / 2 * 2 = a.toNat >>> 1 <<< 1 := by
    rw [Nat.shiftLeft_eq, Nat.shiftRight_eq_div_pow, Nat.pow_one]
  rw [hmask, ← BitVec.shiftLeft_ushiftRight, hnat]
  rfl

theorem jalrTarget_eq_ofNat (s : State) (rs1 : Reg) (imm : BitVec 12) : s.jalrTarget rs1 imm =
    BitVec.ofNat 32 ((BitVec.ofInt 32 ((s.x rs1).toInt + imm.toInt)).toNat / 2 * 2) := by
  rw [State.jalrTarget, effAddr_eq_ofInt, and_clearBit0_eq_ofNat]

/-- Settles O41: JALR ends in `jumpAndLink` at the target `jalrTarget`, which reads `rs1` before the link is written. -/
theorem jalrLinksAndJumpsToTheEvenTarget : Obligations.JalrLinksAndJumpsToTheEvenTarget := by
  refine ⟨selects_row (.jalr 0 0 0), fun rd rs1 imm s => ?_⟩
  rw [← jalrTarget_eq_ofNat]
  exact jumps_with_link (exec_jalr s rd rs1 imm)

end Sys2Proof.Machine

/-! Proofs of the statements about the stores (spec/47_stores.md): the words they are selected by, the bytes they write,
and what a load of the same width reads after them. -/

namespace Sys2Proof.Machine

open Sys2Proof.Claims

/-! ### What a statement about a store is put together from (R200) -/

section
variable (s : State) (rs1 rs2 : Reg) (imm : BitVec 12)

theorem exec_sb_eq_store :
    exec (.sb rs1 rs2 imm) s = .next (s.store (s.effAddr rs1 imm) .byte (s.x rs2)) := rfl

theorem exec_sh_eq_store :
    exec (.sh rs1 rs2 imm) s = .next (s.store (s.effAddr rs1 imm) .half (s.x rs2)) := rfl

theorem exec_sw_eq_store :
    exec (.sw rs1 rs2 imm) s = .next (s.store (s.effAddr rs1 imm) .word (s.x rs2)) := rfl

end

/-- An instruction that ends in `store` completes, changes no more than the bytes it stores and goes on at pc + 4. -/
theorem stores_with_result {i : Instr} {s : State} {a v : Word} {w : Width} (h : exec i s = .next (s.store a w v)) :
    ∃ t, exec i s = .next t ∧ StoreResult s t a w v ∧ t.pc = s.pc + 4 :=
  ⟨_, h, store_result s a w v, store_pc s a w v⟩

/-! ### The stores (R201 to R203) -/

/-- Settles O47: the three end in `store` at the effective address, and `store_result` is their frame. -/
theorem storesWriteTheLowBytesAtTheirAddress : Obligations.StoresWriteTheLowBytesAtTheirAddress := by
  refine ⟨selects_row (.sb 0 0 0), selects_row (.sh 0 0 0), selects_row (.sw 0 0 0),
    fun rs1 imm s => effAddr_eq_ofInt s rs1 imm, ?sb, ?sh, ?sw⟩ <;> intro rs1 rs2 imm s
  case sb => exact stores_with_result (exec_sb_eq_store s rs1 rs2 imm)
  case sh => exact stores_with_result (exec_sh_eq_store s rs1 rs2 imm)
  case sw => exact stores_with_result (exec_sw_eq_store s rs1 rs2 imm)

/-! ### A load of the same width after a store (R205) -/

namespace StoreResult

variable {s t : State} {a v : Word} {w : Width}

/-- The bytes stored are read back as the low bytes of the word, zero-extended. -/
theorem memRead_same (h : StoreResult s t a w v) : t.memRead a w = (v.setWidth (8 * w.bytes)).setWidth 32 := by
  have hw : 8 * w.bytes ≤ 32 := Nat.mul_le_mul_left 8 (width_bytes_le w)
  apply BitVec.eq_of_toNat_eq
  rw [toNat_memRead_of_lowBytes h.stored, BitVec.toNat_setWidth_of_le hw, BitVec.toNat_setWidth]

theorem loadSigned_same (h : StoreResult s t a w v) :
    t.loadSigned a w = (v.setWidth (8 * w.bytes)).signExtend 32 :=
  loadSigned_of_memRead h.memRead_same

theorem loadUnsigned_same (h : StoreResult s t a w v) :
    t.loadUnsigned a w = (v.setWidth (8 * w.bytes)).setWidth 32 :=
  h.memRead_same

theorem loadUnsigned_word_same (h : StoreResult s t a .word v) : t.loadUnsigned a .word = v :=
  h.memRead_alias rfl

end StoreResult

theorem RegisterResult.x_destination {s t : State} {rd : Reg} {v : Word} (h : RegisterResult s t rd v) :
    t.x rd = if rd = 0 then 0 else v := by
  rw [h.registers, if_pos rfl]

/-- The store leaves the base register, so the load reads at the address stored at, and `rd` holds what `load` makes of
the bytes there. -/
theorem load_after_store {st ld : Instr} {s : State} {rd rs1 : Reg} {imm : BitVec 12} {w : Width} {v value : Word}
    {load : State → Word → Width → Word} (hst : exec st s = .next (s.store (s.effAddr rs1 imm) w v))
    (hld : ∀ t, exec ld t = .next (t.retire rd (load t (t.effAddr rs1 imm) w)))
    (hvalue : ∀ {t a}, StoreResult s t a w v → load t a w = value) :
    ∃ t u, exec st s = .next t ∧ exec ld t = .next u ∧ u.x rd = if rd = 0 then 0 else value := by
  have hresult := store_result s (s.effAddr rs1 imm) w v
  refine ⟨_, _, hst, hld _, ?_⟩
  rw [(retire_result _ rd _).x_destination, effAddr_congr (hresult.registers rs1), hvalue hresult]

/-- Settles O34: `load_after_store`, with what each load makes of the bytes just stored. -/
theorem storeThenLoadReturnsTheStoredValue : Obligations.StoreThenLoadReturnsTheStoredValue := by
  refine ⟨?lb, ?lbu, ?lh, ?lhu, ?lw⟩ <;> intro s rs1 rs2 rd imm
  case lb =>
    exact load_after_store (exec_sb_eq_store s rs1 rs2 imm) (exec_lb · rd rs1 imm) StoreResult.loadSigned_same
  case lbu =>
    exact load_after_store (exec_sb_eq_store s rs1 rs2 imm) (exec_lbu · rd rs1 imm) StoreResult.loadUnsigned_same
  case lh =>
    exact load_after_store (exec_sh_eq_store s rs1 rs2 imm) (exec_lh · rd rs1 imm) StoreResult.loadSigned_same
  case lhu =>
    exact load_after_store (exec_sh_eq_store s rs1 rs2 imm) (exec_lhu · rd rs1 imm) StoreResult.loadUnsigned_same
  case lw =>
    exact load_after_store (exec_sw_eq_store s rs1 rs2 imm) (exec_lw · rd rs1 imm) StoreResult.loadUnsigned_word_same

end Sys2Proof.Machine

/-! Proofs of the statements about the register-register ALU (spec/48_alu_register.md): the words each instruction is
selected by, and the value it writes. -/

namespace Sys2Proof.Machine

open Sys2Proof.Claims

/-! ### The sum and the difference of the alu, as arithmetic on the unsigned readings (R129) -/

/-- The unsigned reading of a bit vector, taken over the integers, stands for the vector itself. -/
theorem ofInt_natCast_toNat {n : Nat} (v : BitVec n) : BitVec.ofInt n v.toNat = v := by
  rw [BitVec.ofInt_natCast, BitVec.ofNat_toNat, BitVec.setWidth_eq]

theorem alu_add (a b : Word) : alu .add a b = BitVec.ofNat 32 (a.toNat + b.toNat) := by
  rw [← add_ofNat, BitVec.ofNat_toNat, BitVec.setWidth_eq, alu]

/-- The difference of the readings may be negative; the alu writes it modulo 2^32. -/
theorem alu_sub (a b : Word) : alu .sub a b = BitVec.ofInt 32 (a.toNat - b.toNat) := by
  rw [Int.sub_eq_add_neg, BitVec.ofInt_add, BitVec.ofInt_neg, ofInt_natCast_toNat, ofInt_natCast_toNat,
    ← BitVec.sub_eq_add_neg, alu]

/-! ### What a statement about one instruction is put together from -/

section
variable (s : State) (rd rs1 rs2 : Reg)

theorem exec_add : exec (.add rd rs1 rs2) s = .next (s.retire rd (alu .add (s.x rs1) (s.x rs2))) := rfl

theorem exec_sub : exec (.sub rd rs1 rs2) s = .next (s.retire rd (alu .sub (s.x rs1) (s.x rs2))) := rfl

theorem exec_sll : exec (.sll rd rs1 rs2) s = .next (s.retire rd (alu .sll (s.x rs1) (s.x rs2))) := rfl

theorem exec_slt : exec (.slt rd rs1 rs2) s = .next (s.retire rd (alu .slt (s.x rs1) (s.x rs2))) := rfl

theorem exec_sltu : exec (.sltu rd rs1 rs2) s = .next (s.retire rd (alu .sltu (s.x rs1) (s.x rs2))) := rfl

theorem exec_xor : exec (.xor rd rs1 rs2) s = .next (s.retire rd (s.x rs1 ^^^ s.x rs2)) := rfl

theorem exec_srl : exec (.srl rd rs1 rs2) s = .next (s.retire rd (alu .srl (s.x rs1) (s.x rs2))) := rfl

theorem exec_sra : exec (.sra rd rs1 rs2) s = .next (s.retire rd (alu .sra (s.x rs1) (s.x rs2))) := rfl

theorem exec_or : exec (.or rd rs1 rs2) s = .next (s.retire rd (s.x rs1 ||| s.x rs2)) := rfl

theorem exec_and : exec (.and rd rs1 rs2) s = .next (s.retire rd (s.x rs1 &&& s.x rs2)) := rfl

end

/-- An instruction that ends in `retire` completes and writes a value of which each bit is what `bit` says. -/
theorem retires_with_bits {i : Instr} {s : State} {rd : Reg} {v : Word} {bit : Nat → Bool}
    (h : exec i s = .next (s.retire rd v)) (hbit : ∀ k, v.getLsbD k = bit k) :
    ∃ t v, exec i s = .next t ∧ RegisterResult s t rd v ∧ t.pc = s.pc + 4 ∧ ∀ k, k < 32 → v.getLsbD k = bit k :=
  ⟨_, v, h, retire_result s rd v, retire_pc s rd v, fun k _ => hbit k⟩

/-! ### The sum and the difference (R211, R212) -/

/-- Settles O52: ADD and SUB end in `retire` with `alu_add` and `alu_sub`. -/
theorem addAndSubWrapModulo2To32 : Obligations.AddAndSubWrapModulo2To32 := by
  refine ⟨selects_row (.add 0 0 0), selects_row (.sub 0 0 0), ?add, ?sub⟩ <;> intro rd rs1 rs2 s
  case add => exact retires_with_value (exec_add s rd rs1 rs2) (alu_add _ _)
  case sub => exact retires_with_value (exec_sub s rd rs1 rs2) (alu_sub _ _)

/-! ### The shifts (R213, R217, R218) -/

/-- Settles O53: the three end in `retire` with the alu's shift, whose amount is the low five bits of `x[rs2]`. -/
theorem registerShiftsUseTheLowFiveBits : Obligations.RegisterShiftsUseTheLowFiveBits := by
  refine ⟨selects_row (.sll 0 0 0), selects_row (.srl 0 0 0), selects_row (.sra 0 0 0), ?sll, ?srl, ?sra⟩ <;>
    intro rd rs1 rs2 s
  case sll => exact retires_with_value (exec_sll s rd rs1 rs2) (alu_sll _ _)
  case srl => exact retires_with_value (exec_srl s rd rs1 rs2) (alu_srl _ _)
  case sra => exact retires_with_value (exec_sra s rd rs1 rs2) (alu_sra _ _)

/-! ### The comparisons (R214, R215) -/

/-- Settles O54: SLT and SLTU end in `retire` with the alu's comparison of `toInt` (signed) and `toNat` (unsigned). -/
theorem registerComparesWriteZeroOrOne : Obligations.RegisterComparesWriteZeroOrOne := by
  refine ⟨selects_row (.slt 0 0 0), selects_row (.sltu 0 0 0), ?slt, ?sltu⟩ <;> intro rd rs1 rs2 s
  case slt => exact retires_with_value (exec_slt s rd rs1 rs2) (alu_slt _ _)
  case sltu => exact retires_with_value (exec_sltu s rd rs1 rs2) (alu_sltu _ _)

/-! ### The bitwise operations (R216, R219, R220) -/

/-- Settles O55: the three end in `retire` with the operation on the two words, which acts bit by bit. -/
theorem registerLogicCombinesBitByBit : Obligations.RegisterLogicCombinesBitByBit := by
  refine ⟨selects_row (.xor 0 0 0), selects_row (.or 0 0 0), selects_row (.and 0 0 0), ?xor, ?or, ?and⟩ <;>
    intro rd rs1 rs2 s
  case xor => exact retires_with_bits (exec_xor s rd rs1 rs2) fun _ => BitVec.getLsbD_xor
  case or => exact retires_with_bits (exec_or s rd rs1 rs2) fun _ => BitVec.getLsbD_or
  case and => exact retires_with_bits (exec_and s rd rs1 rs2) fun _ => BitVec.getLsbD_and

end Sys2Proof.Machine

/-! Proofs of the statements about the unmatched word (spec/49_unmatched.md): its step under each policy, and the
instruction it acts as under the documented one. -/

namespace Sys2Proof.Machine

section
variable {s : State}

theorem step_unmatched_of_nop {why : Reject} (h : decode s.fetch = .error why) (hp : s.params.unmatchedPolicy = .nop) :
    step s = .next (s.commit s.seqPc) := by
  rw [step_eq_unmatched h, unmatched, hp]

theorem step_unmatched_of_fault {why : Reject} (h : decode s.fetch = .error why)
    (hp : s.params.unmatchedPolicy = .fault) : step s = .fault (.illegalInstruction s.pc s.fetch) := by
  rw [step_eq_unmatched h, unmatched, hp]
  rfl

end

theorem commit_result (s : State) (p : Word) : NoResult s (s.commit p) :=
  ⟨commit_x s p, commit_byteAt s p, commit_params s p⟩

theorem retire_zero (s : State) (v : Word) : s.retire 0 v = s.commit s.seqPc := by
  rw [State.retire, setX_zero]

/-- Settles O14: a word that satisfies no row decodes to nothing, and its step commits pc + 4. -/
theorem unmatchedWordOnlyAdvancesThePc : Obligations.UnmatchedWordOnlyAdvancesThePc := by
  intro s hp hrow
  obtain ⟨why, hd⟩ := decode_error_of_no_row hrow
  exact ⟨_, step_unmatched_of_nop hd hp, commit_result s s.seqPc, commit_pc s s.seqPc⟩

/-- Settles O15: a word that satisfies no row decodes to nothing, and its step raises the fault. -/
theorem unmatchedWordFaultsUnderFaultPolicy : Obligations.UnmatchedWordFaultsUnderFaultPolicy := by
  intro s hp hrow
  obtain ⟨why, hd⟩ := decode_error_of_no_row hrow
  exact step_unmatched_of_fault hd hp

/-- Settles O16: ADDI x0,x0,0 discards its sum, so it too only commits pc + 4. -/
theorem unmatchedWordActsAsNopInstruction : Obligations.UnmatchedWordActsAsNopInstruction := by
  intro s why hp hd
  rw [step_unmatched_of_nop hd hp, exec_addi, retire_zero]

end Sys2Proof.Machine

/-! Proofs of the statements about reset and loading (spec/70_reset_and_hazards.md, spec/10_state.md section 7): the
word a loader writes, and the state after reset. -/

namespace Sys2Proof.Machine

/-! ### A loaded word is fetched (R262) -/

theorem hostWrite_toNat (s : State) (a : Word) (b : Byte) : s.hostWrite a b.toNat = s.setByte a b := by
  rw [State.hostWrite, ofInt_natCast_toNat]

theorem lowBytes_four (w : Word) :
    lowBytes w 4 = [w.extractLsb 7 0, w.extractLsb 15 8, w.extractLsb 23 16, w.extractLsb 31 24] := by
  simp only [lowBytes, extractLsb'_ushiftRight]
  rfl

/-- The loader's word write, byte by byte (R52, R262). -/
theorem loadWord_eq_hostWrites (s : State) (a w : Word) : s.loadWord a w =
    (((s.hostWrite a (w.extractLsb 7 0).toNat).hostWrite (a + 1) (w.extractLsb 15 8).toNat).hostWrite (a + 2)
      (w.extractLsb 23 16).toNat).hostWrite (a + 3) (w.extractLsb 31 24).toNat := by
  have h2 : a + 1 + 1 = a + 2 := succ_addr a 1
  have h3 : a + 2 + 1 = a + 3 := BitVec.add_assoc a 2 1
  rw [State.loadWord, State.memWrite, Width.bytes, lowBytes_four]
  simp only [State.setBytes, hostWrite_toNat, h2, h3]

/-- SW writes the bytes the loader writes, so a loaded word is read back as a stored one is. -/
theorem memRead_loadWord {s : State} {a b : Word} (w : Word) (h : s.cellOf b = s.cellOf a) :
    (s.loadWord a w).memRead b .word = w :=
  (memRead_commit _ s.seqPc b .word).symm.trans ((store_result s a .word w).memRead_alias h)

theorem fetch_loadWord {s : State} {a : Word} (w : Word) (h : s.cellOf s.pc = s.cellOf a) :
    (s.loadWord a w).fetch = w := by
  have hpc : (s.loadWord a w).pc = s.pc := memWrite_pc s a .word w
  rw [State.fetch, hpc, memRead_loadWord w h]

theorem withFetchWord_toNat (s : State) (w : Word) : s.withFetchWord 32 w.toNat = s.loadWord s.pc w := by
  rw [State.withFetchWord, Nat.mod_eq_of_lt w.isLt, BitVec.ofNat_toNat, BitVec.setWidth_eq]

/-- Settles O36: `loadWord_eq_hostWrites`, and `fetch_loadWord` at an alias of the pc and at the pc itself. -/
theorem loadedWordIsFetchedAtItsAddress : Obligations.LoadedWordIsFetchedAtItsAddress := by
  refine fun s a w => ⟨loadWord_eq_hostWrites s a w, fun h => fetch_loadWord w h.symm, withFetchWord_toNat s w, ?_⟩
  rw [withFetchWord_toNat, fetch_loadWord w rfl]

/-! ### The state after reset (R40, R261) -/

theorem reset_x (r : Reg) : State.reset.x r = 0 := by
  by_cases hr : r = 0
  · rw [hr, x_zero]
  · have hfin : r.toFin ≠ 0 := fun e => hr (BitVec.eq_of_toFin_eq e)
    exact (construct_x hfin).trans (Vector.getElem_replicate _)

/-- Settles O24: memory lists nothing, so every byte is the blank one; the registers are `reset_x`. -/
theorem resetStateIsTheDefaultConstruction : Obligations.ResetStateIsTheDefaultConstruction :=
  ⟨rfl, reset_x, fun _ => rfl, rfl, rfl, rfl, rfl⟩

/-- Settles O25: `inv_construct` at the default configuration, whose pc is 0. -/
theorem resetMeetsTheInvariants : Obligations.ResetMeetsTheInvariants :=
  ⟨inv_construct Config.default, rfl⟩

end Sys2Proof.Machine

/-! Proof of the statement about the words written out from the encodings (spec/95_test_vectors.md). -/

namespace Sys2Proof

/-- Settles O1: nine words evaluated to their instruction, three to the reason no handler takes them. -/
theorem writtenOutWordsDecodeToTheirInstruction : Obligations.WrittenOutWordsDecodeToTheirInstruction := by
  refine ⟨?lui, ?auipc, ?jal, ?bne, ?lw, ?srai, ?jalr, ?sw, ?sub, ?zeros, ?ones, ?ecall⟩ <;> decide

end Sys2Proof
